-- ==== Sys2Proof/Word.lean ====
section
/-! DEFINITION. The word types of the block: bytes, bit strings, byte strings, command words (00_scope.md R10, 30_encoding.md R60). -/

namespace Sys2Proof

/-- One byte; bit 7 is its most significant bit (R10). -/
abbrev Byte := BitVec 8

/-- A bit string: a finite list of bits whose first element is the front bit (R10). -/
abbrev Bits := List Bool

/-- A byte string, its first byte at index 0 (R10). -/
abbrev Bytes := List Byte

/-- A command word (R60). -/
abbrev CmdWord := BitVec 32

end Sys2Proof
end

