-- ==== Sys2Proof/Syntax.lean ====
section
/-! DEFINITION. The commands of the block, one constructor per row of spec/opcode_table.json, in the table's order (30_encoding.md R62). -/

namespace Sys2Proof

/-- A decoded command. `bits`, `n`, `nbytes` and `idlen` are field W, `i` is W[7:0], `k` is field K,
`constrain` and `invert` are field F (R61, R62). The operands are not part of it: they come from the operand port (R63). -/
inductive Instr where
  | bsLoad
  | bsPop (n : Nat)
  | bsLen
  | bsEnd
  | revB
  | revBs
  | revI (nbytes : Nat)
  | serU (constrain : Bool) (bits : Nat)
  | desU
  | serS (constrain : Bool) (bits : Nat)
  | desS
  | serRu (constrain : Bool) (bits : Nat)
  | desRu
  | serRs (constrain : Bool) (bits : Nat)
  | desRs
  | serRo (constrain : Bool) (bits : Nat)
  | desRo
  | serBool
  | desBool
  | serTxt (bits : Nat)
  | desTxt
  | serEnum (k : Nat) (bits : Nat)
  | desEnum (k : Nat)
  | esc
  | unesc
  | crcTab (i : Nat)
  | crcGen
  | crcChk
  | crcChks
  | frmBuild (invert : Bool)
  | frmDecon (invert : Bool) (idlen : Nat)
  | frmSplit
  | stRd
  | stClr
  deriving DecidableEq, Repr

end Sys2Proof
end

