-- ==== Sys2Proof/WellFormed.lean ====
section
/-! DEFINITION. Which terms of Instr a command word can say: field W is 16 bits, field K and the table index are 8 bits (30_encoding.md R61, R62). -/

namespace Sys2Proof

/-- A value of field W (R61, R63). -/
def fitsW (w : Nat) : Bool := decide (w < 65536)

/-- A value of field K (R61), or a CRC table index W[7:0] (R62). -/
def fitsByte (k : Nat) : Bool := decide (k < 256)

/-- The command is one that a command word can carry. An out-of-range W such as 0 for SER.U is still well formed:
it decodes, and the command raises the error its rule names (R65). -/
def WellFormed (i : Instr) : Bool :=
  match i with
  | .bsLoad => true
  | .bsPop n => fitsW n
  | .bsLen => true
  | .bsEnd => true
  | .revB => true
  | .revBs => true
  | .revI nbytes => fitsW nbytes
  | .serU _ bits => fitsW bits
  | .desU => true
  | .serS _ bits => fitsW bits
  | .desS => true
  | .serRu _ bits => fitsW bits
  | .desRu => true
  | .serRs _ bits => fitsW bits
  | .desRs => true
  | .serRo _ bits => fitsW bits
  | .desRo => true
  | .serBool => true
  | .desBool => true
  | .serTxt bits => fitsW bits
  | .desTxt => true
  | .serEnum k bits => fitsByte k && fitsW bits
  | .desEnum k => fitsByte k
  | .esc => true
  | .unesc => true
  | .crcTab idx => fitsByte idx
  | .crcGen => true
  | .crcChk => true
  | .crcChks => true
  | .frmBuild _ => true
  | .frmDecon _ idlen => fitsW idlen
  | .frmSplit => true
  | .stRd => true
  | .stClr => true

end Sys2Proof
end

