-- ==== Sys2Proof/Decode.lean ====
section
/-! DEFINITION. The decoder, total on all 2^32 words, and the encoder (30_encoding.md R61 to R67). -/

namespace Sys2Proof

/-- Field OPC, bits 31:26 (R61). -/
def opcOf (word : CmdWord) : Nat := word.toNat / 67108864

/-- Field F, bit 25 (R61). -/
def flagOf (word : CmdWord) : Bool := decide (word.toNat / 33554432 % 2 = 1)

/-- Field Z, bit 24, reserved (R61). -/
def zeroOf (word : CmdWord) : Bool := decide (word.toNat / 16777216 % 2 = 1)

/-- Field K, bits 23:16, an unsigned 8-bit integer (R61, R63). -/
def tableOf (word : CmdWord) : Nat := word.toNat / 65536 % 256

/-- Field W, bits 15:0, an unsigned 16-bit integer (R61, R63). -/
def immOf (word : CmdWord) : Nat := word.toNat % 65536

/-- Why a command word is illegal (R65). Every one of them raises IllegalCommand. -/
inductive IllegalWord where
  /-- OPC is a value R64 marks illegal: R65 (a). -/
  | unassignedOpcode
  /-- Z = 1: R65 (b). -/
  | reservedZ
  /-- F = 1 for a command that does not use F: R65 (c). -/
  | reservedF
  /-- K is not 0 for a command that does not use K: R65 (d). -/
  | reservedK
  /-- W is not 0 for a command that does not use W: R65 (e). -/
  | reservedW
  /-- CRC.TAB with W[15:8] not 0: R65 (f). -/
  | reservedIndexBits
  deriving DecidableEq, Repr

/-- One row of R62: which of the fields F, K and W the command uses, and the command with fields F, K and W. -/
structure Row where
  usesF : Bool
  usesK : Bool
  usesW : Bool
  command : Bool → Nat → Nat → Instr

/-- A row that uses no field. -/
def plainRow (i : Instr) : Row := ⟨false, false, false, fun _ _ _ => i⟩

/-- A row that uses W only. -/
def immRow (mk : Nat → Instr) : Row := ⟨false, false, true, fun _ _ w => mk w⟩

/-- A row that uses F and W. -/
def flagImmRow (mk : Bool → Nat → Instr) : Row := ⟨true, false, true, fun f _ w => mk f w⟩

/-- The row of R62 with the given OPC and, for OPC 0x24, the given F (R67). -/
def rowOf (opc : Nat) (f : Bool) : Option Row :=
  match opc with
  | 0x01 => some (plainRow .bsLoad)
  | 0x02 => some (immRow .bsPop)
  | 0x03 => some (plainRow .bsLen)
  | 0x04 => some (plainRow .bsEnd)
  | 0x08 => some (plainRow .revB)
  | 0x09 => some (plainRow .revBs)
  | 0x0A => some (immRow .revI)
  | 0x10 => some (flagImmRow .serU)
  | 0x11 => some (plainRow .desU)
  | 0x12 => some (flagImmRow .serS)
  | 0x13 => some (plainRow .desS)
  | 0x14 => some (flagImmRow .serRu)
  | 0x15 => some (plainRow .desRu)
  | 0x16 => some (flagImmRow .serRs)
  | 0x17 => some (plainRow .desRs)
  | 0x18 => some (flagImmRow .serRo)
  | 0x19 => some (plainRow .desRo)
  | 0x1A => some (plainRow .serBool)
  | 0x1B => some (plainRow .desBool)
  | 0x1C => some (immRow .serTxt)
  | 0x1D => some (plainRow .desTxt)
  | 0x1E => some ⟨false, true, true, fun _ k w => .serEnum k w⟩
  | 0x1F => some ⟨false, true, false, fun _ k _ => .desEnum k⟩
  | 0x20 => some (plainRow .esc)
  | 0x21 => some (plainRow .unesc)
  | 0x22 => some (immRow .crcTab)
  | 0x23 => some (plainRow .crcGen)
  | 0x24 => some ⟨true, false, false, fun _ _ _ => if f then .crcChks else .crcChk⟩
  | 0x28 => some ⟨true, false, false, fun f _ _ => .frmBuild f⟩
  | 0x29 => some (flagImmRow .frmDecon)
  | 0x2A => some (plainRow .frmSplit)
  | 0x3E => some (plainRow .stRd)
  | 0x3F => some (plainRow .stClr)
  | _ => none

/-- The command a word stands for, or why it is illegal. The checks stand in the order of R67. -/
def decode (word : CmdWord) : Except IllegalWord Instr :=
  if zeroOf word then .error .reservedZ
  else
    match rowOf (opcOf word) (flagOf word) with
    | none => .error .unassignedOpcode
    | some row =>
      if !row.usesF && flagOf word then .error .reservedF
      else if !row.usesK && tableOf word != 0 then .error .reservedK
      else if !row.usesW && immOf word != 0 then .error .reservedW
      else if opcOf word == 0x22 && immOf word / 256 != 0 then .error .reservedIndexBits
      else .ok (row.command (flagOf word) (tableOf word) (immOf word))

/-- The word with the given fields and Z = 0 (R61). -/
def packWord (opc : Nat) (f : Bool) (k w : Nat) : CmdWord :=
  BitVec.ofNat 32 (opc * 67108864 + f.toNat * 33554432 + k * 65536 + w)

/-- The command word of a well-formed command (R62). -/
def encode (i : Instr) : CmdWord :=
  match i with
  | .bsLoad => packWord 0x01 false 0 0
  | .bsPop n => packWord 0x02 false 0 n
  | .bsLen => packWord 0x03 false 0 0
  | .bsEnd => packWord 0x04 false 0 0
  | .revB => packWord 0x08 false 0 0
  | .revBs => packWord 0x09 false 0 0
  | .revI nbytes => packWord 0x0A false 0 nbytes
  | .serU constrain bits => packWord 0x10 constrain 0 bits
  | .desU => packWord 0x11 false 0 0
  | .serS constrain bits => packWord 0x12 constrain 0 bits
  | .desS => packWord 0x13 false 0 0
  | .serRu constrain bits => packWord 0x14 constrain 0 bits
  | .desRu => packWord 0x15 false 0 0
  | .serRs constrain bits => packWord 0x16 constrain 0 bits
  | .desRs => packWord 0x17 false 0 0
  | .serRo constrain bits => packWord 0x18 constrain 0 bits
  | .desRo => packWord 0x19 false 0 0
  | .serBool => packWord 0x1A false 0 0
  | .desBool => packWord 0x1B false 0 0
  | .serTxt bits => packWord 0x1C false 0 bits
  | .desTxt => packWord 0x1D false 0 0
  | .serEnum k bits => packWord 0x1E false k bits
  | .desEnum k => packWord 0x1F false k 0
  | .esc => packWord 0x20 false 0 0
  | .unesc => packWord 0x21 false 0 0
  | .crcTab idx => packWord 0x22 false 0 idx
  | .crcGen => packWord 0x23 false 0 0
  | .crcChk => packWord 0x24 false 0 0
  | .crcChks => packWord 0x24 true 0 0
  | .frmBuild invert => packWord 0x28 invert 0 0
  | .frmDecon invert idlen => packWord 0x29 invert 0 idlen
  | .frmSplit => packWord 0x2A false 0 0
  | .stRd => packWord 0x3E false 0 0
  | .stClr => packWord 0x3F false 0 0

/-- The host's reading of a table word: `w` holds the row's `nbits` bits and every bit above them is 0.
A command is one 32-bit word taken whole from the command port, so there is no byte order (R54, R60). -/
def decodeTableWord (nbits w : Nat) : Option Instr :=
  match decode (BitVec.ofNat 32 (w % 2 ^ nbits)) with
  | .ok i => some i
  | .error _ => none

end Sys2Proof
end

