-- ==== Sys2Proof/Machine/Bits.lean ====
section
/-! DEFINITION. The conversions of 00_scope.md R11 between integers, bit strings and byte strings, byte reversal, and rounding. -/

namespace Sys2Proof.Machine

/-- `uint`: the front bit is the most significant; `uint [] = 0` (R11). -/
def uint : Bits → Nat
  | [] => 0
  | b :: s => b.toNat * 2 ^ s.length + uint s

/-- `sint`: two's complement, `uint s - s[0] * 2^len(s)` (R11). The spec defines it for `len(s) >= 1`, and only such
strings reach it (R100). -/
def sint (s : Bits) : Int :=
  match s with
  | [] => 0
  | b :: _ => (uint s : Int) - (b.toNat : Int) * 2 ^ s.length

/-- The low `n` bits of `x`, most significant first. -/
def natBits (x : Nat) : Nat → Bits
  | 0 => []
  | n + 1 => x.testBit n :: natBits x n

/-- `bitsOf`: the `n`-bit string whose `uint` is `v mod 2^n` (R11). -/
def bitsOf (v : Int) (n : Nat) : Bits := natBits (v % 2 ^ n).toNat n

/-- The eight bits of a byte, bit 7 first (R44). -/
def byteBits (b : Byte) : Bits := natBits b.toNat 8

/-- `bytesToBits` (R11): bit 7 of byte `k` is bit `8k` of the string (R44). -/
def bytesToBits : Bytes → Bits
  | [] => []
  | b :: d => byteBits b ++ bytesToBits d

/-- `bitsToBytes` (R11), for a length that is a multiple of 8; the callers check that first (R47). -/
def bitsToBytes : Bits → Bytes
  | b7 :: b6 :: b5 :: b4 :: b3 :: b2 :: b1 :: b0 :: s =>
    BitVec.ofNat 8 (uint [b7, b6, b5, b4, b3, b2, b1, b0]) :: bitsToBytes s
  | _ => []

/-- `rev8`: bit `i` of the result is bit `7 - i` of `b` (R11). -/
def rev8 (b : Byte) : Byte := BitVec.ofNat 8 (uint (byteBits b).reverse)

/-- Every byte of a byte string reversed, the byte order kept (R46 (b)). -/
def revBytes (d : Bytes) : Bytes := d.map rev8

/-- Byte `j` of a natural number, byte 0 the least significant: `v[8j+7 : 8j]` (R10). -/
def byteAt (v j : Nat) : Byte := BitVec.ofNat 8 (v / 2 ^ (8 * j))

/-- The number whose bytes `0 .. n-1` are those of `v`, each reversed in place: the loop of 40_bit_sequence.md R86. -/
def revNat (v : Nat) : Nat → Nat
  | 0 => 0
  | n + 1 => revNat v n + (rev8 (byteAt v n)).toNat * 2 ^ (8 * n)

/-- `rhaz`: round half away from zero, `sign(q) * floor(|q| + 1/2)` (R11). -/
def rhaz (q : Rat) : Int :=
  if q < 0 then -(-q + 1 / 2).floor else (q + 1 / 2).floor

end Sys2Proof.Machine
end

