-- ==== Sys2Proof/Config.lean ====
section
/-! DEFINITION. The implementation parameters the spec leaves OPEN (00_scope.md R8) and the one the model knows nothing of. -/

namespace Sys2Proof.Config

/-- The parameters that are fixed before reset and that no command changes (R8, 70_reset_and_hazards.md R203).
They stand in `State.params`, so that a statement about every state holds for every value of them. -/
structure Params where
  /-- MAX_BUF_BYTES, the longest byte-string operand or result; `none` is unbounded (R8, R48). -/
  maxBufBytes : Option Nat
  /-- MAX_BS_BITS, the capacity of BS; `none` is unbounded (R8, R80). -/
  maxBsBits : Option Nat
  /-- ENUM_TABLE: the members of table `k` stand at index `k`; a table beyond the list is empty (R8, R117). -/
  enumTables : List (List Nat)
  deriving DecidableEq, Repr

/-- UNVERIFIED (log 8): ENUM_TABLE of the machine at hand. It has no body, so no proof can lean on a member of it (I8). -/
opaque enumTables : List (List Nat)

/-- The parameters at `State.reset`: the reference reading "unbounded" of R8 for the two bounds
(DESIGN CHOICE, log 5 and log 7) and the unknown enumeration tables (log 8). -/
def reference : Params :=
  { maxBufBytes := none, maxBsBits := none, enumTables := enumTables }

end Sys2Proof.Config
end

