-- ==== Sys2Proof/Machine/State.lean ====
section
/-! DEFINITION. What the machine holds: operand values, results, responses, host-side events, the state and its value at reset (10_state.md). -/

namespace Sys2Proof.Machine

/-- The error kinds (60_exceptions.md R181); their numeric codes are `errorCode` (Machine/Flags.lean). -/
inductive ErrorKind where
  /-- Code 1: a pop asks for more bits than BS holds. -/
  | insufficientBits
  /-- Code 2: a value outside the field's range with F = 0, or a bad field width. -/
  | badIntegerSize
  /-- Code 3: a negative value for an unsigned field. -/
  | unexpectedNegative
  /-- Code 4: bits left in BS at the end of a decode. -/
  | dataTooLong
  /-- Code 5: reserved for the message layer, never raised by the block. -/
  | uplinkDataWrongSize
  /-- Code 6: a frame or a non-empty buffer without its outer flags. -/
  | missingFlagBytes
  /-- Code 7: the CRC recomputed differs from the CRC given. -/
  | invalidCrc
  /-- Code 8: reserved for the message layer, never raised by the block. -/
  | invalidCallsign
  /-- Code 9: reserved for the dispatch layer, never raised by the block. -/
  | unknownMessageId
  /-- Code 10: a trailing escape byte, or a frame region too short. -/
  | invalidFrame
  /-- Code 11: an operand of the wrong type or out of its domain. -/
  | badOperand
  /-- Code 12: an enumeration code that is not in the table. -/
  | unknownEnumValue
  /-- Code 13: an illegal command word (30_encoding.md R65). -/
  | illegalCommand
  deriving DecidableEq, Repr

/-- A value on a slot of the operand port, as a mathematical value (R25, R8 OPERAND_ENCODING).
DEDUCED (log 4): an integer is the rational of that value, and a byte string is a sequence of integers (R10). -/
inductive Value where
  /-- A number: an `Int`, a `Nat`, a byte or a `Rat`. -/
  | num (q : Rat)
  /-- A bit string, front bit first. -/
  | bits (s : Bits)
  /-- A sequence of integers: a byte string when every element is in 0..255, a list of `Nat` when none is negative. -/
  | seq (xs : List Int)
  deriving DecidableEq, Repr

/-- The named slots of the operand port (R25). -/
inductive Slot where
  | a
  | b
  | c
  | d
  | e
  | l
  deriving DecidableEq, Repr

/-- The type a command reads a slot at (R25, 30_encoding.md R68). -/
inductive SlotType where
  | int
  | nat
  | byte
  | rat
  | bits
  | bytes
  | natList
  deriving DecidableEq, Repr

/-- The operand port: one value on every slot (R25). -/
structure Operands where
  a : Value
  b : Value
  c : Value
  d : Value
  e : Value
  l : Value
  deriving DecidableEq, Repr

/-- DESIGN CHOICE (log 3): what stands on the operand port when no command runs. -/
def idleOperands : Operands :=
  { a := .num 0, b := .num 0, c := .num 0, d := .bits [], e := .seq [], l := .seq [] }

/-- The result of a successful command, by its type (R26, 30_encoding.md R68). -/
inductive Result where
  | unit
  | nat (n : Nat)
  | int (i : Int)
  | rat (q : Rat)
  | bool (b : Bool)
  | bits (s : Bits)
  | bytes (d : Bytes)
  /-- FRM.DECON's pair: the message IDs and the payload bits. -/
  | message (ids : List Nat) (payload : Bits)
  /-- FRM.SPLIT's list of frames. -/
  | frames (fs : List Bytes)
  deriving DecidableEq, Repr

/-- The response of a command: `Ok(v)` or `Err(code)` (R26). -/
inductive Response where
  | ok (v : Result)
  | err (e : ErrorKind)
  deriving DecidableEq, Repr

/-- A command as the host issues it: the word and the operands (R25, R27). -/
structure Command where
  word : CmdWord
  operands : Operands
  deriving DecidableEq, Repr

/-- What the outside does to the block (DESIGN CHOICE, log 1): the host issues a command, or the reset input is asserted. -/
inductive HostEvent where
  /-- The host issues a command and waits for its response (60_exceptions.md R190). -/
  | command (c : Command)
  /-- Reset (70_reset_and_hazards.md R200), with the command that was in progress, if any: it is abandoned. -/
  | reset (inProgress : Option Command)
  deriving DecidableEq, Repr

/-- The reasons the machine stops with a fault: none. Every error of the spec is a response (60_exceptions.md R184),
and an empty type says that no step faults (log 19). Nobody raises it. -/
inductive Fault where
  deriving DecidableEq, Repr

/-- The reasons a step has no meaning. -/
inductive Refusal where
  /-- Raised by `exec`'s arm of a command that has no meaning yet. Safe: nothing is claimed of it. -/
  | notModelled (mnemonic : String)
  /-- Raised by `step` when an operand the command reads is longer than MAX_BUF_BYTES: "the command does not run and the
  model has no step for it" (20_memory.md R48, 60_exceptions.md R185 step 2). Safe: the spec has no step here either. -/
  | operandOverMaxBuf
  /-- Raised by `step` when a command's result would be longer than MAX_BUF_BYTES: R48 and I6 say that there is no such
  result and give no effect (log 6). Safe: nothing is claimed of it. -/
  | resultOverMaxBuf
  deriving DecidableEq, Repr

/-- The machine. -/
structure State where
  /-- BS, the bit-sequence register, front bit first (R22). -/
  bs : Bits
  /-- STATUS: ERRCODE in bits 3:0, ERR in bit 8 (R23). -/
  status : BitVec 32
  /-- The operand port (R25). -/
  operands : Operands
  /-- The response port: the last response since reset, if any (R26; log 2). -/
  response : Option Response
  /-- The parameters, fixed before reset (R8, R203). -/
  params : Config.Params
  /-- The MODEL's own field: what the host and the platform still do, oldest first (log 1). -/
  host : List HostEvent
  deriving DecidableEq, Repr

/-- The state after reset: BS empty, STATUS 0 (R31, R200); the ports idle (log 2, log 3); nothing offered yet (log 1). -/
def State.reset : State :=
  { bs := []
    status := 0#32
    operands := idleOperands
    response := none
    params := Config.reference
    host := [] }

end Sys2Proof.Machine
end

