-- ==== Sys2Proof/Machine/Flags.lean ====
section
/-! DEFINITION. The error codes and the fields of STATUS (10_state.md R23, 60_exceptions.md R181); the block has no other flag (R29). -/

namespace Sys2Proof.Machine

/-- The code of an error kind (R181). -/
def errorCode (e : ErrorKind) : Nat :=
  match e with
  | .insufficientBits => 1
  | .badIntegerSize => 2
  | .unexpectedNegative => 3
  | .dataTooLong => 4
  | .uplinkDataWrongSize => 5
  | .missingFlagBytes => 6
  | .invalidCrc => 7
  | .invalidCallsign => 8
  | .unknownMessageId => 9
  | .invalidFrame => 10
  | .badOperand => 11
  | .unknownEnumValue => 12
  | .illegalCommand => 13

/-- STATUS after an error: ERRCODE = the code, ERR = 1, and the hardwired bits 0, which leaves no other bit (R23, R184). -/
def errorStatus (e : ErrorKind) : BitVec 32 := 0x100#32 ||| BitVec.ofNat 32 (errorCode e)

/-- STATUS.ERRCODE, bits 3:0 (R23). -/
def errcodeOf (status : BitVec 32) : Nat := status.toNat % 16

/-- STATUS.ERR, bit 8 (R23). -/
def errOf (status : BitVec 32) : Bool := status.getLsbD 8

/-- What a read of STATUS gives: bits 7:4 and 31:9 are hardwired 0, whatever the field holds (R23, I3; log 11). -/
def statusRead (status : BitVec 32) : BitVec 32 := status &&& 0x10F#32

end Sys2Proof.Machine
end

