-- ==== Sys2Proof/Machine/Operands.lean ====
section
/-! DEFINITION. Reading a slot of the operand port at its type, the operand signatures, and the length bound (10_state.md R25, 30_encoding.md R68, 20_memory.md R48). -/

namespace Sys2Proof.Machine

/-- The value as a `Rat`: any number. -/
def readRat (v : Value) : Option Rat :=
  match v with
  | .num q => some q
  | .bits _ => none
  | .seq _ => none

/-- The value as an `Int`: a number that is an integer. -/
def readInt (v : Value) : Option Int :=
  match v with
  | .num q => if q.den = 1 then some q.num else none
  | .bits _ => none
  | .seq _ => none

/-- The value as a `Nat`: an integer that is not negative. -/
def readNat (v : Value) : Option Nat :=
  match readInt v with
  | some (.ofNat n) => some n
  | some (.negSucc _) => none
  | none => none

/-- The value as a byte, `0..255`. -/
def readByte (v : Value) : Option Byte :=
  match readNat v with
  | some n => if n < 256 then some (BitVec.ofNat 8 n) else none
  | none => none

/-- The value as a bit string. -/
def readBits (v : Value) : Option Bits :=
  match v with
  | .bits s => some s
  | .num _ => none
  | .seq _ => none

/-- Every element a natural number. -/
def naturals : List Int → Option (List Nat)
  | [] => some []
  | x :: xs => if 0 ≤ x then (naturals xs).map (x.toNat :: ·) else none

/-- Every element a byte, `0..255` (R10). -/
def octets : List Int → Option Bytes
  | [] => some []
  | x :: xs => if 0 ≤ x ∧ x < 256 then (octets xs).map (BitVec.ofInt 8 x :: ·) else none

/-- The value as a byte string: "a byte value above 255" is the wrong type (R25). -/
def readBytes (v : Value) : Option Bytes :=
  match v with
  | .seq xs => octets xs
  | .num _ => none
  | .bits _ => none

/-- The value as a list of `Nat`: "a negative integer in op.L" is the wrong type (R25). -/
def readNats (v : Value) : Option (List Nat) :=
  match v with
  | .seq xs => naturals xs
  | .num _ => none
  | .bits _ => none

/-- The value on a slot. -/
def slotValue (ops : Operands) (slot : Slot) : Value :=
  match slot with
  | .a => ops.a
  | .b => ops.b
  | .c => ops.c
  | .d => ops.d
  | .e => ops.e
  | .l => ops.l

/-- The value has the type. -/
def hasType (t : SlotType) (v : Value) : Bool :=
  match t with
  | .int => (readInt v).isSome
  | .nat => (readNat v).isSome
  | .byte => (readByte v).isSome
  | .rat => (readRat v).isSome
  | .bits => (readBits v).isSome
  | .bytes => (readBytes v).isSome
  | .natList => (readNats v).isSome

/-- The slots a command reads and their types (R68). -/
def signature (i : Instr) : List (Slot × SlotType) :=
  match i with
  | .bsLoad => [(.d, .bits)]
  | .bsPop _ => []
  | .bsLen => []
  | .bsEnd => []
  | .revB => [(.a, .byte)]
  | .revBs => [(.d, .bytes)]
  | .revI _ => [(.a, .nat)]
  | .serU _ _ => [(.a, .int)]
  | .desU => [(.d, .bits)]
  | .serS _ _ => [(.a, .int)]
  | .desS => [(.d, .bits)]
  | .serRu _ _ => [(.a, .rat), (.b, .rat)]
  | .desRu => [(.d, .bits), (.b, .rat)]
  | .serRs _ _ => [(.a, .rat), (.b, .rat)]
  | .desRs => [(.d, .bits), (.b, .rat)]
  | .serRo _ _ => [(.a, .rat), (.b, .rat), (.c, .rat)]
  | .desRo => [(.d, .bits), (.b, .rat), (.c, .rat)]
  | .serBool => [(.a, .int)]
  | .desBool => [(.d, .bits)]
  | .serTxt _ => [(.d, .bytes)]
  | .desTxt => [(.d, .bits)]
  | .serEnum _ _ => [(.a, .int)]
  | .desEnum _ => [(.d, .bits)]
  | .esc => [(.d, .bytes)]
  | .unesc => [(.d, .bytes)]
  | .crcTab _ => []
  | .crcGen => [(.d, .bytes)]
  | .crcChk => [(.d, .bytes), (.e, .bytes)]
  | .crcChks => [(.d, .bytes), (.e, .bytes)]
  | .frmBuild _ => [(.l, .natList), (.d, .bits)]
  | .frmDecon _ _ => [(.d, .bytes)]
  | .frmSplit => [(.d, .bytes)]
  | .stRd => []
  | .stClr => []

/-- Every slot the command reads holds a value of its type (R25). -/
def wellTyped (i : Instr) (ops : Operands) : Bool :=
  (signature i).all fun p => hasType p.2 (slotValue ops p.1)

/-- A byte string or bit string longer than `m` bytes (R48); a bit string of `n` bits is longer when `8 m < n` (log 5). -/
def longerThan (m : Nat) (v : Value) : Bool :=
  match v with
  | .num _ => false
  | .bits s => decide (8 * m < s.length)
  | .seq xs => decide (m < xs.length)

/-- The value is over MAX_BUF_BYTES on a slot that is read at the type (R48). What stands on the slot decides, not whether it
has the type: the bound is checked before types are (60_exceptions.md R185). A sequence on the slot of a list of `Nat`,
which is op.L, is such a list and not a byte string, and has no bound (log 5). -/
def overOnSlot (m : Nat) (t : SlotType) (v : Value) : Bool :=
  match v with
  | .num _ => false
  | .bits s => longerThan m (.bits s)
  | .seq xs => t != .natList && longerThan m (.seq xs)

/-- A slot the command reads holds a byte string or bit string over MAX_BUF_BYTES (R48); slots the command does not read are
ignored (R25). -/
def operandOverMax (p : Config.Params) (i : Instr) (ops : Operands) : Bool :=
  match p.maxBufBytes with
  | none => false
  | some m => (signature i).any fun x => overOnSlot m x.2 (slotValue ops x.1)

/-- A byte string or bit string in a result is longer than `m` bytes (R48). -/
def resultLongerThan (m : Nat) (v : Result) : Bool :=
  match v with
  | .unit => false
  | .nat _ => false
  | .int _ => false
  | .rat _ => false
  | .bool _ => false
  | .bits s => decide (8 * m < s.length)
  | .bytes d => decide (m < d.length)
  | .message _ payload => decide (8 * m < payload.length)
  | .frames fs => fs.any fun f => decide (m < f.length)

/-- The response carries a result over MAX_BUF_BYTES (R48; log 6). -/
def responseOverMax (p : Config.Params) (r : Option Response) : Bool :=
  match p.maxBufBytes with
  | none => false
  | some m =>
    match r with
    | some (.ok v) => resultLongerThan m v
    | some (.err _) => false
    | none => false

end Sys2Proof.Machine
end

