-- ==== Sys2Proof/Machine/Ops.lean ====
section
/-! DEFINITION. The shared operations: answering a command, raising an error, taking a command from the host, delivering a response, reset. -/

namespace Sys2Proof.Machine

/-- What a command without state effects comes to: a result or an error (10_state.md R26). -/
abbrev Reply := Except ErrorKind Result

/-- `return v`: the command ends with `Ok(v)`; STATUS stays as it is (00_scope.md R12, 10_state.md R23). -/
def respond (v : Result) (s : State) : State := { s with response := some (.ok v) }

/-- `raise`: the effect of an error, the block's "trap entry" (60_exceptions.md R184). STATUS records the code, BS stays
as it was, the response is `Err(code)`. There is no saved state, no handler and no return from it (R186). -/
def raise (e : ErrorKind) (s : State) : State :=
  { s with status := errorStatus e, response := some (.err e) }

/-- BS <- v (00_scope.md R12). -/
def setBs (v : Bits) (s : State) : State := { s with bs := v }

/-- STATUS <- v (00_scope.md R12). -/
def setStatus (v : BitVec 32) (s : State) : State := { s with status := v }

/-- The state after a command whose whole effect is its reply. -/
def settle (s : State) (r : Reply) : State :=
  match r with
  | .ok v => respond v s
  | .error e => raise e s

/-- A command whose whole effect is its reply (20_memory.md R49). -/
def answer (s : State) (r : Reply) : Host.Outcome State Fault Refusal := .next (settle s r)

/-- Reads a slot as an `Int`; the wrong type raises BadOperand (10_state.md R25). -/
def withInt (v : Value) (k : Int → Reply) : Reply :=
  match readInt v with
  | some x => k x
  | none => .error .badOperand

/-- Reads a slot as a `Nat`; the wrong type raises BadOperand. -/
def withNat (v : Value) (k : Nat → Reply) : Reply :=
  match readNat v with
  | some x => k x
  | none => .error .badOperand

/-- Reads a slot as a byte; the wrong type raises BadOperand. -/
def withByte (v : Value) (k : Byte → Reply) : Reply :=
  match readByte v with
  | some x => k x
  | none => .error .badOperand

/-- Reads a slot as a `Rat`; the wrong type raises BadOperand. -/
def withRat (v : Value) (k : Rat → Reply) : Reply :=
  match readRat v with
  | some x => k x
  | none => .error .badOperand

/-- Reads a slot as a bit string; the wrong type raises BadOperand. -/
def withBits (v : Value) (k : Bits → Reply) : Reply :=
  match readBits v with
  | some x => k x
  | none => .error .badOperand

/-- Reads a slot as a byte string; the wrong type raises BadOperand. -/
def withBytes (v : Value) (k : Bytes → Reply) : Reply :=
  match readBytes v with
  | some x => k x
  | none => .error .badOperand

/-- Reads a slot as a list of `Nat`; the wrong type raises BadOperand. -/
def withNats (v : Value) (k : List Nat → Reply) : Reply :=
  match readNats v with
  | some x => k x
  | none => .error .badOperand

/-- The block takes a command: its operands stand on the operand port, and `rest` is what the host does afterwards (R25, R27). -/
def accept (c : Command) (rest : List HostEvent) (s : State) : State :=
  { s with operands := c.operands, host := rest }

/-- The command is over: nothing the host passed is kept (R20), so the operand port is idle again (log 3). -/
def release (s : State) : State := { s with operands := idleOperands }

/-- The end of a command: the response is delivered and the port released; a result over MAX_BUF_BYTES is refused (R48; log 6). -/
def deliver (o : Host.Outcome State Fault Refusal) : Host.Outcome State Fault Refusal :=
  match o with
  | .next s => if responseOverMax s.params s.response then .refused .resultOverMaxBuf else .next (release s)
  | .fault f => .fault f
  | .refused r => .refused r

/-- Reset (70_reset_and_hazards.md R200): the reset values whatever the state was, with the parameters kept (R203) and the
host going on with `rest`. A command in progress is abandoned: no effect and no response. -/
def resetState (rest : List HostEvent) (s : State) : State :=
  { State.reset with params := s.params, host := rest }

end Sys2Proof.Machine
end

