-- ==== Sys2Proof/Machine/BitSequence.lean ====
section
/-! DEFINITION. The bit-sequence shifter and the bit-reversal unit: BS.LOAD, BS.POP, BS.LEN, BS.END, REV.B, REV.BS, REV.I (40_bit_sequence.md). -/

namespace Sys2Proof.Machine

/-- A bit string over MAX_BS_BITS (00_scope.md R8). -/
def overCapacity (p : Config.Params) (d : Bits) : Bool :=
  match p.maxBsBits with
  | none => false
  | some m => decide (m < d.length)

/-- BS.LOAD (R80). -/
def execBsLoad (s : State) : Host.Outcome State Fault Refusal :=
  .next
    (match readBits s.operands.d with
    | none => raise .badOperand s
    | some d => if overCapacity s.params d then raise .badOperand s else respond .unit (setBs d s))

/-- BS.POP n (R81). -/
def execBsPop (n : Nat) (s : State) : Host.Outcome State Fault Refusal :=
  .next
    (if s.bs.length < n then raise .insufficientBits s
    else respond (.bits (s.bs.take n)) (setBs (s.bs.drop n) s))

/-- BS.LEN (R82). -/
def execBsLen (s : State) : Host.Outcome State Fault Refusal :=
  answer s (.ok (.nat s.bs.length))

/-- BS.END (R83). -/
def execBsEnd (s : State) : Host.Outcome State Fault Refusal :=
  answer s (if s.bs.length = 0 then .ok .unit else .error .dataTooLong)

/-- REV.B (R84); an operand that is not a byte raises BadOperand. -/
def execRevB (s : State) : Host.Outcome State Fault Refusal :=
  answer s (withByte s.operands.a fun b => .ok (.nat (rev8 b).toNat))

/-- REV.BS (R85). -/
def execRevBs (s : State) : Host.Outcome State Fault Refusal :=
  answer s (withBytes s.operands.d fun d => .ok (.bytes (revBytes d)))

/-- The reply of REV.I (R86). -/
def revInt (n v : Nat) : Reply :=
  if n = 0 then .error .badOperand
  else if 2 ^ (8 * n) ≤ v then .error .badOperand
  else .ok (.nat (revNat v n))

/-- REV.I nbytes (R86). -/
def execRevI (nbytes : Nat) (s : State) : Host.Outcome State Fault Refusal :=
  answer s (withNat s.operands.a fun v => revInt nbytes v)

end Sys2Proof.Machine
end

