-- ==== Sys2Proof/Machine/Control.lean ====
section
/-! DEFINITION. The status commands ST.RD and ST.CLR (43_control.md). -/

namespace Sys2Proof.Machine

/-- ST.RD (R170). -/
def execStRd (s : State) : Host.Outcome State Fault Refusal :=
  answer s (.ok (.nat (statusRead s.status).toNat))

/-- ST.CLR (R171). -/
def execStClr (s : State) : Host.Outcome State Fault Refusal :=
  .next (respond .unit (setStatus 0#32 s))

end Sys2Proof.Machine
end

