-- ==== Sys2Proof/Machine/FieldCodec.lean ====
section
/-! DEFINITION. The field codec: the SER and DES commands (41_field_codec.md). -/

namespace Sys2Proof.Machine

/-- The unsigned integer step of SER.U, SER.RU and SER.RO after the width check: the sign check, then the range check,
which `constrain` turns into saturation (R102, R107, R111). -/
def putUnsigned (n : Nat) (constrain : Bool) (v : Int) : Reply :=
  if v < 0 then .error .unexpectedNegative
  else if 2 ^ n - 1 < v then
    if constrain then .ok (.bits (bitsOf (2 ^ n - 1) n)) else .error .badIntegerSize
  else .ok (.bits (bitsOf v n))

/-- The signed integer step of SER.S and SER.RS after the width check (R104, R109). -/
def putSigned (n : Nat) (constrain : Bool) (v : Int) : Reply :=
  if v < -2 ^ (n - 1) then
    if constrain then .ok (.bits (bitsOf (-2 ^ (n - 1)) n)) else .error .badIntegerSize
  else if 2 ^ (n - 1) - 1 < v then
    if constrain then .ok (.bits (bitsOf (2 ^ (n - 1) - 1) n)) else .error .badIntegerSize
  else .ok (.bits (bitsOf v n))

/-- A width of zero raises BadIntegerSize before anything else of the rule (R100). -/
def withWidth (n : Nat) (r : Reply) : Reply :=
  if n = 0 then .error .badIntegerSize else r

/-- A resolution that is not positive raises BadOperand (R106). -/
def withResolution (res : Rat) (r : Reply) : Reply :=
  if res ≤ 0 then .error .badOperand else r

/-- SER.U bits (R102). -/
def execSerU (constrain : Bool) (bits : Nat) (s : State) : Host.Outcome State Fault Refusal :=
  answer s (withInt s.operands.a fun v => withWidth bits (putUnsigned bits constrain v))

/-- DES.U (R103). -/
def execDesU (s : State) : Host.Outcome State Fault Refusal :=
  answer s (withBits s.operands.d fun d => withWidth d.length (.ok (.nat (uint d))))

/-- SER.S bits (R104). -/
def execSerS (constrain : Bool) (bits : Nat) (s : State) : Host.Outcome State Fault Refusal :=
  answer s (withInt s.operands.a fun v => withWidth bits (putSigned bits constrain v))

/-- DES.S (R105). -/
def execDesS (s : State) : Host.Outcome State Fault Refusal :=
  answer s (withBits s.operands.d fun d => withWidth d.length (.ok (.int (sint d))))

/-- SER.RU bits (R107): op.A the value, op.B the resolution. -/
def execSerRu (constrain : Bool) (bits : Nat) (s : State) : Host.Outcome State Fault Refusal :=
  answer s (withRat s.operands.a fun v => withRat s.operands.b fun res =>
    withWidth bits (withResolution res (putUnsigned bits constrain (rhaz (v / res)))))

/-- DES.RU (R108): op.B the resolution. -/
def execDesRu (s : State) : Host.Outcome State Fault Refusal :=
  answer s (withBits s.operands.d fun d => withRat s.operands.b fun res =>
    withWidth d.length (withResolution res (.ok (.rat ((uint d : Rat) * res)))))

/-- SER.RS bits (R109): op.A the value, op.B the resolution. -/
def execSerRs (constrain : Bool) (bits : Nat) (s : State) : Host.Outcome State Fault Refusal :=
  answer s (withRat s.operands.a fun v => withRat s.operands.b fun res =>
    withWidth bits (withResolution res (putSigned bits constrain (rhaz (v / res)))))

/-- DES.RS (R110): op.B the resolution. -/
def execDesRs (s : State) : Host.Outcome State Fault Refusal :=
  answer s (withBits s.operands.d fun d => withRat s.operands.b fun res =>
    withWidth d.length (withResolution res (.ok (.rat ((sint d : Rat) * res)))))

/-- SER.RO bits (R111): op.A the value, op.B the offset, op.C the resolution. -/
def execSerRo (constrain : Bool) (bits : Nat) (s : State) : Host.Outcome State Fault Refusal :=
  answer s (withRat s.operands.a fun v => withRat s.operands.b fun off => withRat s.operands.c fun res =>
    withWidth bits (withResolution res (putUnsigned bits constrain (rhaz ((v - off) / res)))))

/-- DES.RO (R112): op.B the offset, op.C the resolution. -/
def execDesRo (s : State) : Host.Outcome State Fault Refusal :=
  answer s (withBits s.operands.d fun d => withRat s.operands.b fun off => withRat s.operands.c fun res =>
    withWidth d.length (withResolution res (.ok (.rat (off + res * (uint d : Rat))))))

/-- SER.BOOL (R113): 1 is true, 0 is false. -/
def execSerBool (s : State) : Host.Outcome State Fault Refusal :=
  answer s (withInt s.operands.a fun v =>
    if v = 0 then .ok (.bits [false]) else if v = 1 then .ok (.bits [true]) else .error .badOperand)

/-- The reply of DES.BOOL (R114). -/
def boolOfBits (d : Bits) : Reply :=
  match d with
  | [b] => .ok (.bool b)
  | [] => .error .badIntegerSize
  | _ :: _ :: _ => .error .badIntegerSize

/-- DES.BOOL (R114). -/
def execDesBool (s : State) : Host.Outcome State Fault Refusal :=
  answer s (withBits s.operands.d boolOfBits)

/-- The text of a field of `m` bytes: padded with spaces on the right, or cut to its first `m` bytes (R115). -/
def fitText (m : Nat) (d : Bytes) : Bytes :=
  if d.length < m then d ++ List.replicate (m - d.length) 0x20#8 else d.take m

/-- The reply of SER.TXT (R115). -/
def putText (n : Nat) (d : Bytes) : Reply :=
  if n = 0 ∨ n % 8 ≠ 0 then .error .badOperand
  else if d.any (fun b => decide (0x7F < b.toNat)) then .error .badOperand
  else .ok (.bits (bytesToBits (fitText (n / 8) d)))

/-- SER.TXT bits (R115). -/
def execSerTxt (bits : Nat) (s : State) : Host.Outcome State Fault Refusal :=
  answer s (withBytes s.operands.d fun d => putText bits d)

/-- DES.TXT (R116). -/
def execDesTxt (s : State) : Host.Outcome State Fault Refusal :=
  answer s (withBits s.operands.d fun d =>
    if d.length = 0 ∨ d.length % 8 ≠ 0 then .error .badOperand else .ok (.bytes (bitsToBytes d)))

/-- The members of ENUM_TABLE(k) (00_scope.md R8). -/
def enumTable (p : Config.Params) (k : Nat) : List Nat := p.enumTables.getD k []

/-- `v` is a member of ENUM_TABLE(k); its members are natural numbers (R117). -/
def isMember (p : Config.Params) (k : Nat) (v : Int) : Bool :=
  match v with
  | .ofNat n => (enumTable p k).contains n
  | .negSucc _ => false

/-- The reply of SER.ENUM after the width check (R117). The sign check cannot fail, since a member is not negative. -/
def putEnum (p : Config.Params) (k n : Nat) (v : Int) : Reply :=
  if isMember p k v then
    if v < 0 then .error .unexpectedNegative
    else if 2 ^ n - 1 < v then .error .badIntegerSize
    else .ok (.bits (bitsOf v n))
  else .error .unknownEnumValue

/-- SER.ENUM bits, k (R117). -/
def execSerEnum (k bits : Nat) (s : State) : Host.Outcome State Fault Refusal :=
  answer s (withInt s.operands.a fun v => withWidth bits (putEnum s.params k bits v))

/-- DES.ENUM k (R118). -/
def execDesEnum (k : Nat) (s : State) : Host.Outcome State Fault Refusal :=
  answer s (withBits s.operands.d fun d =>
    withWidth d.length (if isMember s.params k (uint d) then .ok (.nat (uint d)) else .error .unknownEnumValue))

end Sys2Proof.Machine
end

