-- ==== Sys2Proof/Machine/FrameTransport.lean ====
section
/-! DEFINITION. The byte stuffer, the CRC-16 generator, the frame assembler and disassembler (42_frame_transport.md). -/

namespace Sys2Proof.Machine

/-- FLAG (R140). -/
def flagByte : Byte := 0x7E#8

/-- ESCB (R140). -/
def escByte : Byte := 0x7D#8

/-- XMASK (R140). -/
def xorMask : Byte := 0x20#8

/-- `esc`: every 0x7D and 0x7E becomes 0x7D and the byte XOR 0x20 (R141). -/
def escBytes : Bytes → Bytes
  | [] => []
  | b :: d => if b = escByte ∨ b = flagByte then escByte :: (b ^^^ xorMask) :: escBytes d else b :: escBytes d

/-- The scan of `unesc` with its one bit of working state `pending`; `none` is the trailing escape byte (R142). -/
def unescFrom (pending : Bool) : Bytes → Option Bytes
  | [] => if pending then none else some []
  | b :: d =>
    if pending then (unescFrom false d).map ((b ^^^ xorMask) :: ·)
    else if b = escByte then unescFrom true d
    else (unescFrom false d).map (b :: ·)

/-- `unesc` (R142). -/
def unescBytes (d : Bytes) : Option Bytes := unescFrom false d

/-- ESC (R141). -/
def execEsc (s : State) : Host.Outcome State Fault Refusal :=
  answer s (withBytes s.operands.d fun d => .ok (.bytes (escBytes d)))

/-- The reply of UNESC (R142). -/
def unescReply (d : Bytes) : Reply :=
  match unescBytes d with
  | some u => .ok (.bytes u)
  | none => .error .invalidFrame

/-- UNESC (R142). -/
def execUnesc (s : State) : Host.Outcome State Fault Refusal :=
  answer s (withBytes s.operands.d unescReply)

/-- The generator polynomial without its x^16 term (R144). -/
def crcPoly : BitVec 16 := 0x1021#16

/-- One step of the table's generation rule (R143). -/
def crcShift (c : BitVec 16) : BitVec 16 := if c.msb then (c <<< 1) ^^^ crcPoly else c <<< 1

/-- Eight such steps (R143). -/
def crcShift8 (c : BitVec 16) : BitVec 16 :=
  crcShift (crcShift (crcShift (crcShift (crcShift (crcShift (crcShift (crcShift c)))))))

/-- CRCT, the table ROM: entry `i` starts from `i` in the high byte (R143, 10_state.md R24; log 14). -/
def crcTable (i : Byte) : BitVec 16 := crcShift8 (i.setWidth 16 <<< 8)

/-- The CRC update: the table is indexed by the high byte alone, and the data byte goes into the low byte (R146). -/
def crcUpdate (c : BitVec 16) (b : Byte) : BitVec 16 :=
  crcTable ((c >>> 8).setWidth 8) ^^^ (c <<< 8) ^^^ b.setWidth 16

/-- `crc16`: the accumulator starts at 0 (R146). -/
def crc16 (d : Bytes) : BitVec 16 := d.foldl crcUpdate 0#16

/-- The two CRC bytes, low byte first (R147, 90_conflicts.md C1). -/
def crcBytes (d : Bytes) : Bytes := [(crc16 d).setWidth 8, (crc16 d >>> 8).setWidth 8]

/-- CRC.TAB i (R145). -/
def execCrcTab (i : Nat) (s : State) : Host.Outcome State Fault Refusal :=
  answer s (.ok (.nat (crcTable (BitVec.ofNat 8 i)).toNat))

/-- CRC.GEN (R148). -/
def execCrcGen (s : State) : Host.Outcome State Fault Refusal :=
  answer s (withBytes s.operands.d fun d => .ok (.bytes (crcBytes d)))

/-- CRC.CHK (R149). -/
def execCrcChk (s : State) : Host.Outcome State Fault Refusal :=
  answer s (withBytes s.operands.d fun d => withBytes s.operands.e fun c =>
    if c.length ≠ 2 then .error .badOperand
    else if crcBytes d = c then .ok .unit
    else .error .invalidCrc)

/-- CRC.CHKS (R150): the comparison is the result; a mismatch is no error. -/
def execCrcChks (s : State) : Host.Outcome State Fault Refusal :=
  answer s (withBytes s.operands.d fun d => withBytes s.operands.e fun c =>
    if c.length ≠ 2 then .error .badOperand else .ok (.bool (decide (crcBytes d = c))))

/-- The inversion step of a frame command: every byte reversed when `invert` (20_memory.md R45). -/
def invertIf (invert : Bool) (d : Bytes) : Bytes := if invert then revBytes d else d

/-- The frame of a raw region `R = ids ++ payload`: the CRC over the region as it is, then the inversion of region and CRC,
then the escaping, then the flags (R151, R152, 90_conflicts.md C2, C3). -/
def frameOf (invert : Bool) (r : Bytes) : Bytes :=
  flagByte :: escBytes (invertIf invert (r ++ crcBytes r)) ++ [flagByte]

/-- The reply of FRM.BUILD (R152). -/
def buildFrame (invert : Bool) (ids : List Nat) (payload : Bits) : Reply :=
  if ids.length = 0 then .error .badOperand
  else if ids.any (fun id => decide (255 < id)) then .error .badOperand
  else if payload.length % 8 ≠ 0 then .error .badOperand
  else .ok (.bytes (frameOf invert (ids.map (BitVec.ofNat 8) ++ bitsToBytes payload)))

/-- FRM.BUILD (R152). -/
def execFrmBuild (invert : Bool) (s : State) : Host.Outcome State Fault Refusal :=
  answer s (withNats s.operands.l fun ids => withBits s.operands.d fun payload => buildFrame invert ids payload)

/-- The bytes between the two flags, `none` where a flag is missing: a frame has at least two bytes (R153). -/
def stripFlags (d : Bytes) : Option Bytes :=
  if d.length < 2 ∨ d.head? ≠ some flagByte ∨ d.getLast? ≠ some flagByte then none
  else some ((d.drop 1).take (d.length - 2))

/-- FRM.DECON on the unescaped and un-inverted region: the length check, the CRC check, the parts (R153). -/
def splitRegion (m : Nat) (u : Bytes) : Reply :=
  if u.length < m + 2 then .error .invalidFrame
  else if crcBytes (u.take (u.length - 2)) = u.drop (u.length - 2) then
    .ok (.message (((u.take (u.length - 2)).take m).map BitVec.toNat) (bytesToBits ((u.take (u.length - 2)).drop m)))
  else .error .invalidCrc

/-- The reply of FRM.DECON: strip the flags, unescape, un-invert, then the region (R153, 90_conflicts.md C6). -/
def deconFrame (invert : Bool) (m : Nat) (d : Bytes) : Reply :=
  if m = 0 then .error .badOperand
  else
    match stripFlags d with
    | none => .error .missingFlagBytes
    | some middle =>
      match unescBytes middle with
      | none => .error .invalidFrame
      | some u => splitRegion m (invertIf invert u)

/-- FRM.DECON idlen (R153). -/
def execFrmDecon (invert : Bool) (idlen : Nat) (s : State) : Host.Outcome State Fault Refusal :=
  answer s (withBytes s.operands.d fun d => deconFrame invert idlen d)

/-- The scan of FRM.SPLIT, `seg` being the bytes since the last flag (R154). -/
def splitFrom (seg : Bytes) : Bytes → List Bytes
  | [] => []
  | b :: d =>
    if b = flagByte then
      if seg = [] then splitFrom [] d else (flagByte :: seg ++ [flagByte]) :: splitFrom [] d
    else splitFrom (seg ++ [b]) d

/-- The reply of FRM.SPLIT (R154). -/
def splitFrames (d : Bytes) : Reply :=
  if d.length = 0 then .ok (.frames [])
  else if d.head? ≠ some flagByte ∨ d.getLast? ≠ some flagByte then .error .missingFlagBytes
  else .ok (.frames (splitFrom [] (d.drop 1)))

/-- FRM.SPLIT (R154). -/
def execFrmSplit (s : State) : Host.Outcome State Fault Refusal :=
  answer s (withBytes s.operands.d splitFrames)

end Sys2Proof.Machine
end

