-- ==== Sys2Proof/Machine/Dispatch.lean ====
section
/-! DEFINITION. One arm per command. -/

namespace Sys2Proof.Machine

def exec (i : Instr) (s : State) : Host.Outcome State Fault Refusal :=
  match i with
  | .bsLoad => Sys2Proof.Machine.execBsLoad s
  | .bsPop n => Sys2Proof.Machine.execBsPop n s
  | .bsLen => Sys2Proof.Machine.execBsLen s
  | .bsEnd => Sys2Proof.Machine.execBsEnd s
  | .revB => Sys2Proof.Machine.execRevB s
  | .revBs => Sys2Proof.Machine.execRevBs s
  | .revI nbytes => Sys2Proof.Machine.execRevI nbytes s
  | .serU constrain bits => Sys2Proof.Machine.execSerU constrain bits s
  | .desU => Sys2Proof.Machine.execDesU s
  | .serS constrain bits => Sys2Proof.Machine.execSerS constrain bits s
  | .desS => Sys2Proof.Machine.execDesS s
  | .serRu constrain bits => Sys2Proof.Machine.execSerRu constrain bits s
  | .desRu => Sys2Proof.Machine.execDesRu s
  | .serRs constrain bits => Sys2Proof.Machine.execSerRs constrain bits s
  | .desRs => Sys2Proof.Machine.execDesRs s
  | .serRo constrain bits => Sys2Proof.Machine.execSerRo constrain bits s
  | .desRo => Sys2Proof.Machine.execDesRo s
  | .serBool => Sys2Proof.Machine.execSerBool s
  | .desBool => Sys2Proof.Machine.execDesBool s
  | .serTxt bits => Sys2Proof.Machine.execSerTxt bits s
  | .desTxt => Sys2Proof.Machine.execDesTxt s
  | .serEnum k bits => Sys2Proof.Machine.execSerEnum k bits s
  | .desEnum k => Sys2Proof.Machine.execDesEnum k s
  | .esc => Sys2Proof.Machine.execEsc s
  | .unesc => Sys2Proof.Machine.execUnesc s
  | .crcTab idx => Sys2Proof.Machine.execCrcTab idx s
  | .crcGen => Sys2Proof.Machine.execCrcGen s
  | .crcChk => Sys2Proof.Machine.execCrcChk s
  | .crcChks => Sys2Proof.Machine.execCrcChks s
  | .frmBuild invert => Sys2Proof.Machine.execFrmBuild invert s
  | .frmDecon invert idlen => Sys2Proof.Machine.execFrmDecon invert idlen s
  | .frmSplit => Sys2Proof.Machine.execFrmSplit s
  | .stRd => Sys2Proof.Machine.execStRd s
  | .stClr => Sys2Proof.Machine.execStClr s

end Sys2Proof.Machine
end

