-- ==== Sys2Proof/Machine/Issue.lean ====
section
/-! DEFINITION. Issuing a command: from the command port to the response, and what one step takes (00_scope.md R7, 60_exceptions.md R185, 70_reset_and_hazards.md R205). -/

namespace Sys2Proof.Machine

/-- The word at the command port, run to its response on the operands that stand on the operand port. Decode comes first
(R185): an illegal word reads no operand and raises IllegalCommand; an operand over MAX_BUF_BYTES is refused, since the
command does not run; then the command runs. -/
def runCommand (word : CmdWord) (s : State) : Host.Outcome State Fault Refusal :=
  match decode word with
  | .error _ => deliver (.next (raise .illegalCommand s))
  | .ok i =>
    if operandOverMax s.params i s.operands then .refused .operandOverMaxBuf else deliver (exec i s)

/-- What the block does next: it waits when nothing is offered, and nothing changes (log 9); it is reset; or it takes the
command that is offered. -/
def advance (s : State) : Host.Outcome State Fault Refusal :=
  match s.host with
  | [] => .next s
  | .reset _ :: rest => .next (resetState rest s)
  | .command c :: rest => runCommand c.word (accept c rest s)

/-- The command of a word of `nbits` bits whose further bits are 0, with the operands given (R60). -/
def placedCommand (nbits w : Nat) (operands : Operands) : Command :=
  { word := BitVec.ofNat 32 (w % 2 ^ nbits), operands := operands }

end Sys2Proof.Machine
end

