-- ==== Sys2Proof/Machine/Step.lean ====
section
/-! DEFINITION. One step of the machine, and the placing of a command for the host's checks. -/

namespace Sys2Proof.Machine

/-- One step: one command from its issue to its response, one reset, or waiting (70_reset_and_hazards.md R205, R209). -/
def step (s : State) : Host.Outcome State Fault Refusal := advance s

/-- The command word placed where `step` takes its next one: at the head of what the host does, with the operands that
stand on the operand port (log 17). -/
def State.withFetchWord (s : State) (nbits w : Nat) : State :=
  { s with host := .command (placedCommand nbits w s.operands) :: s.host }

end Sys2Proof.Machine
end

