-- ==== Sys2Proof/Safety.lean ====
section
/-! DEFINITION. The terms the claims use: a command answers, a command raises, the operands that carry a byte string, correct rounding, and the invariant of the block's state. -/

namespace Sys2Proof

open Machine

/-- The command ends with `Ok(v)` and changes nothing but the response (10_state.md R23, R26). -/
def Answers (i : Instr) (s : State) (v : Result) : Prop :=
  exec i s = .next { s with response := some (.ok v) }

/-- The command ends with `Err(e)`: ERRCODE holds the code, ERR is 1, and nothing else changes but the response
(60_exceptions.md R184). -/
def Raises (i : Instr) (s : State) (e : ErrorKind) : Prop :=
  exec i s = .next
    { s with status := 0x100#32 ||| BitVec.ofNat 32 (errorCode e), response := some (.err e) }

/-- The operand value that carries a byte string (00_scope.md R10). -/
def bytesValue (d : Bytes) : Value := .seq (d.map fun b => (b.toNat : Int))

/-- `r` is `x` rounded to an integer, half away from zero (41_field_codec.md R106). -/
def RoundsTo (x : Rat) (r : Int) : Prop :=
  |(r : Rat) - x| ≤ 1 / 2 ∧ (|(r : Rat) - x| = 1 / 2 → |x| < |(r : Rat)|)

/-- The error kinds the block raises: all of 60_exceptions.md R181 but codes 5, 8 and 9 (93 I5). -/
def blockRaises (e : ErrorKind) : Bool :=
  match e with
  | .insufficientBits => true
  | .badIntegerSize => true
  | .unexpectedNegative => true
  | .dataTooLong => true
  | .uplinkDataWrongSize => false
  | .missingFlagBytes => true
  | .invalidCrc => true
  | .invalidCallsign => false
  | .unknownMessageId => false
  | .invalidFrame => true
  | .badOperand => true
  | .unknownEnumValue => true
  | .illegalCommand => true

/-- STATUS is clear, or it records an error the block raises: ERR = 1, ERRCODE its code, the reserved bits 0
(10_state.md R23, 93 I3, I4, I5). -/
def statusLegal (status : BitVec 32) : Prop :=
  status = 0#32 ∨ ∃ e, blockRaises e = true ∧ status = 0x100#32 ||| BitVec.ofNat 32 (errorCode e)

/-- What holds of the state between commands. -/
structure Inv (s : State) : Prop where
  /-- BS is within its capacity (R22). -/
  bsFits : ∀ m, s.params.maxBsBits = some m → s.bs.length ≤ m
  /-- STATUS holds a legal value (R23). -/
  status : statusLegal s.status
  /-- Nothing of the last command stands on the operand port (R20). -/
  portIdle : s.operands = idleOperands
  /-- Right after an error, STATUS records that very error (R184). -/
  recorded : ∀ e, s.response = some (.err e) →
    blockRaises e = true ∧ s.status = 0x100#32 ||| BitVec.ofNat 32 (errorCode e)

/-! ## How values are written, independently of the conversions the meanings use -/

/-- `b` is the number `v` written most significant bit first in all its bits (00_scope.md R11, 20_memory.md R43). -/
def Spells (b : Bits) (v : Nat) : Prop :=
  v < 2 ^ b.length ∧ ∀ j < b.length, b[j]? = some (v.testBit (b.length - 1 - j))

/-- `b` is the integer `v` in two's complement, most significant bit first (R11). -/
def SpellsInt (b : Bits) (v : Int) : Prop :=
  -2 ^ (b.length - 1) ≤ v ∧ v < 2 ^ (b.length - 1) ∧ Spells b (v % 2 ^ b.length).toNat

/-- `b` holds the bytes of `t` in order, bit 7 of byte `k` at index `8k` (20_memory.md R44). -/
def SpellsBytes (b : Bits) (t : Bytes) : Prop :=
  b.length = 8 * t.length ∧ ∀ k < t.length, ∀ j < 8, b[8 * k + j]? = some ((t.getD k 0#8).getLsbD (7 - j))

/-- `r` is `b` with its bit order reversed (R11). -/
def Reversed (b r : Byte) : Prop := ∀ j < 8, r.getLsbD j = b.getLsbD (7 - j)

/-- `v` is `u` with every byte reversed when `invert`, else `u` itself (20_memory.md R45). -/
def InvertedBy (invert : Bool) (u v : Bytes) : Prop :=
  if invert then List.Forall₂ Reversed u v else v = u

/-- What one byte becomes in the stuffed region (42_frame_transport.md R141). -/
def stuffed (b : Byte) : Bytes := if b = 0x7D#8 ∨ b = 0x7E#8 then [0x7D#8, b ^^^ 0x20#8] else [b]

/-- A stuffed byte string as a list of units: `(true, b)` is 0x7D followed by `b`, `(false, b)` is `b` alone (R142). -/
def wire (units : List (Bool × Byte)) : Bytes := units.flatMap fun t => if t.1 then [0x7D#8, t.2] else [t.2]

/-- A unit that is a byte alone is not 0x7D. -/
def UnitsOk (units : List (Bool × Byte)) : Prop := ∀ t ∈ units, t.1 = false → t.2 ≠ 0x7D#8

/-- What the units stand for (R142). -/
def content (units : List (Bool × Byte)) : Bytes := units.map fun t => if t.1 then t.2 ^^^ 0x20#8 else t.2

/-- One bit of the message into a 16-bit shift register with feedback 0x1021: the CRC bit by bit, without the table. -/
def serialShift (c : BitVec 16) (bit : Bool) : BitVec 16 :=
  (if c.msb then (c <<< 1) ^^^ 0x1021#16 else c <<< 1) ^^^ (if bit then 1#16 else 0#16)

/-- The register after all bits of a byte string, bit 7 of each byte first, starting from 0. -/
def serialCrc (d : Bytes) : BitVec 16 :=
  (d.flatMap fun b => [b.getLsbD 7, b.getLsbD 6, b.getLsbD 5, b.getLsbD 4, b.getLsbD 3, b.getLsbD 2, b.getLsbD 1,
    b.getLsbD 0]).foldl serialShift 0#16

/-! ## The shapes of an outcome that several commands share -/

/-- The unsigned field of `n` bits for the integer `r`: a negative one raises, one in range is written out, and one that is
too large saturates or raises (41_field_codec.md R102, R107, R111). -/
def PutsUnsigned (i : Instr) (s : State) (n : Nat) (constrain : Bool) (r : Int) : Prop :=
  (r < 0 → Raises i s .unexpectedNegative) ∧
  (0 ≤ r → r ≤ 2 ^ n - 1 → ∃ b, b.length = n ∧ Spells b r.toNat ∧ Answers i s (.bits b)) ∧
  (2 ^ n - 1 < r → constrain = true → Answers i s (.bits (List.replicate n true))) ∧
  (2 ^ n - 1 < r → constrain = false → Raises i s .badIntegerSize)

/-- The signed field of `n` bits for the integer `r`: one in range is written in two's complement, and one outside the range
saturates to the nearer bound or raises (41_field_codec.md R104, R109). -/
def PutsSigned (i : Instr) (s : State) (n : Nat) (constrain : Bool) (r : Int) : Prop :=
  (-2 ^ (n - 1) ≤ r → r ≤ 2 ^ (n - 1) - 1 → ∃ b, b.length = n ∧ SpellsInt b r ∧ Answers i s (.bits b)) ∧
  (r < -2 ^ (n - 1) → constrain = true →
    ∃ b, b.length = n ∧ SpellsInt b (-2 ^ (n - 1)) ∧ Answers i s (.bits b)) ∧
  (2 ^ (n - 1) - 1 < r → constrain = true →
    ∃ b, b.length = n ∧ SpellsInt b (2 ^ (n - 1) - 1) ∧ Answers i s (.bits b)) ∧
  (r < -2 ^ (n - 1) ∨ 2 ^ (n - 1) - 1 < r → constrain = false → Raises i s .badIntegerSize)

/-! ## Tables of the spec -/

/-- The OPC values R64 assigns to a command. -/
def assignedOpcodes : List Nat :=
  [0x01, 0x02, 0x03, 0x04, 0x08, 0x09, 0x0A, 0x10, 0x11, 0x12, 0x13, 0x14, 0x15, 0x16, 0x17, 0x18, 0x19, 0x1A, 0x1B,
    0x1C, 0x1D, 0x1E, 0x1F, 0x20, 0x21, 0x22, 0x23, 0x24, 0x28, 0x29, 0x2A, 0x3E, 0x3F]

/-- The OPC values whose F column in R62 is not a dash. -/
def flagOpcodes : List Nat := [0x10, 0x12, 0x14, 0x16, 0x18, 0x24, 0x28, 0x29]

/-- The OPC values whose K column in R62 is not a dash. -/
def tableOpcodes : List Nat := [0x1E, 0x1F]

/-- The OPC values whose W column in R62 is not a dash. -/
def immOpcodes : List Nat := [0x02, 0x0A, 0x10, 0x12, 0x14, 0x16, 0x18, 0x1C, 0x1E, 0x22, 0x29]

/-- The six grounds on which 30_encoding.md R65 makes a command word illegal. -/
def IllegalForm (word : CmdWord) : Prop :=
  (word.extractLsb' 26 6).toNat ∉ assignedOpcodes ∨
  word.getLsbD 24 = true ∨
  (word.getLsbD 25 = true ∧ (word.extractLsb' 26 6).toNat ∉ flagOpcodes) ∨
  (word.extractLsb' 16 8 ≠ 0#8 ∧ (word.extractLsb' 26 6).toNat ∉ tableOpcodes) ∨
  (word.extractLsb' 0 16 ≠ 0#16 ∧ (word.extractLsb' 26 6).toNat ∉ immOpcodes) ∨
  ((word.extractLsb' 26 6).toNat = 0x22 ∧ word.extractLsb' 8 8 ≠ 0#8)

/-- The errors a legal command may raise (60_exceptions.md R181, column "raised by"). SER.ENUM's UnexpectedNegative is left
out: R117 calls it unreachable. -/
def mayRaise (i : Instr) : List ErrorKind :=
  match i with
  | .bsLoad => [.badOperand]
  | .bsPop _ => [.insufficientBits]
  | .bsLen => []
  | .bsEnd => [.dataTooLong]
  | .revB => [.badOperand]
  | .revBs => [.badOperand]
  | .revI _ => [.badOperand]
  | .serU _ _ => [.badIntegerSize, .unexpectedNegative, .badOperand]
  | .desU => [.badIntegerSize, .badOperand]
  | .serS _ _ => [.badIntegerSize, .badOperand]
  | .desS => [.badIntegerSize, .badOperand]
  | .serRu _ _ => [.badIntegerSize, .unexpectedNegative, .badOperand]
  | .desRu => [.badIntegerSize, .badOperand]
  | .serRs _ _ => [.badIntegerSize, .badOperand]
  | .desRs => [.badIntegerSize, .badOperand]
  | .serRo _ _ => [.badIntegerSize, .unexpectedNegative, .badOperand]
  | .desRo => [.badIntegerSize, .badOperand]
  | .serBool => [.badOperand]
  | .desBool => [.badIntegerSize, .badOperand]
  | .serTxt _ => [.badOperand]
  | .desTxt => [.badOperand]
  | .serEnum _ _ => [.badIntegerSize, .unknownEnumValue, .badOperand]
  | .desEnum _ => [.badIntegerSize, .unknownEnumValue, .badOperand]
  | .esc => [.badOperand]
  | .unesc => [.invalidFrame, .badOperand]
  | .crcTab _ => []
  | .crcGen => [.badOperand]
  | .crcChk => [.invalidCrc, .badOperand]
  | .crcChks => [.badOperand]
  | .frmBuild _ => [.badOperand]
  | .frmDecon _ _ => [.missingFlagBytes, .invalidFrame, .invalidCrc, .badOperand]
  | .frmSplit => [.missingFlagBytes, .badOperand]
  | .stRd => []
  | .stClr => []

/-- The commands 20_memory.md R50 leaves out of the pure ones: they read or write BS or STATUS. -/
def touchesState (i : Instr) : Bool :=
  match i with
  | .bsLoad => true
  | .bsPop _ => true
  | .bsLen => true
  | .bsEnd => true
  | .stRd => true
  | .stClr => true
  | .revB => false
  | .revBs => false
  | .revI _ => false
  | .serU _ _ => false
  | .desU => false
  | .serS _ _ => false
  | .desS => false
  | .serRu _ _ => false
  | .desRu => false
  | .serRs _ _ => false
  | .desRs => false
  | .serRo _ _ => false
  | .desRo => false
  | .serBool => false
  | .desBool => false
  | .serTxt _ => false
  | .desTxt => false
  | .serEnum _ _ => false
  | .desEnum _ => false
  | .esc => false
  | .unesc => false
  | .crcTab _ => false
  | .crcGen => false
  | .crcChk => false
  | .crcChks => false
  | .frmBuild _ => false
  | .frmDecon _ _ => false
  | .frmSplit => false

/-- CRCT as 42_frame_transport.md R144 lists it, entries 00 to 3F. -/
def listing00 : List Nat := [
    0x0000, 0x1021, 0x2042, 0x3063, 0x4084, 0x50A5, 0x60C6, 0x70E7,
    0x8108, 0x9129, 0xA14A, 0xB16B, 0xC18C, 0xD1AD, 0xE1CE, 0xF1EF,
    0x1231, 0x0210, 0x3273, 0x2252, 0x52B5, 0x4294, 0x72F7, 0x62D6,
    0x9339, 0x8318, 0xB37B, 0xA35A, 0xD3BD, 0xC39C, 0xF3FF, 0xE3DE,
    0x2462, 0x3443, 0x0420, 0x1401, 0x64E6, 0x74C7, 0x44A4, 0x5485,
    0xA56A, 0xB54B, 0x8528, 0x9509, 0xE5EE, 0xF5CF, 0xC5AC, 0xD58D,
    0x3653, 0x2672, 0x1611, 0x0630, 0x76D7, 0x66F6, 0x5695, 0x46B4,
    0xB75B, 0xA77A, 0x9719, 0x8738, 0xF7DF, 0xE7FE, 0xD79D, 0xC7BC]

/-- CRCT as R144 lists it, entries 40 to 7F. -/
def listing40 : List Nat := [
    0x48C4, 0x58E5, 0x6886, 0x78A7, 0x0840, 0x1861, 0x2802, 0x3823,
    0xC9CC, 0xD9ED, 0xE98E, 0xF9AF, 0x8948, 0x9969, 0xA90A, 0xB92B,
    0x5AF5, 0x4AD4, 0x7AB7, 0x6A96, 0x1A71, 0x0A50, 0x3A33, 0x2A12,
    0xDBFD, 0xCBDC, 0xFBBF, 0xEB9E, 0x9B79, 0x8B58, 0xBB3B, 0xAB1A,
    0x6CA6, 0x7C87, 0x4CE4, 0x5CC5, 0x2C22, 0x3C03, 0x0C60, 0x1C41,
    0xEDAE, 0xFD8F, 0xCDEC, 0xDDCD, 0xAD2A, 0xBD0B, 0x8D68, 0x9D49,
    0x7E97, 0x6EB6, 0x5ED5, 0x4EF4, 0x3E13, 0x2E32, 0x1E51, 0x0E70,
    0xFF9F, 0xEFBE, 0xDFDD, 0xCFFC, 0xBF1B, 0xAF3A, 0x9F59, 0x8F78]

/-- CRCT as R144 lists it, entries 80 to BF. -/
def listing80 : List Nat := [
    0x9188, 0x81A9, 0xB1CA, 0xA1EB, 0xD10C, 0xC12D, 0xF14E, 0xE16F,
    0x1080, 0x00A1, 0x30C2, 0x20E3, 0x5004, 0x4025, 0x7046, 0x6067,
    0x83B9, 0x9398, 0xA3FB, 0xB3DA, 0xC33D, 0xD31C, 0xE37F, 0xF35E,
    0x02B1, 0x1290, 0x22F3, 0x32D2, 0x4235, 0x5214, 0x6277, 0x7256,
    0xB5EA, 0xA5CB, 0x95A8, 0x8589, 0xF56E, 0xE54F, 0xD52C, 0xC50D,
    0x34E2, 0x24C3, 0x14A0, 0x0481, 0x7466, 0x6447, 0x5424, 0x4405,
    0xA7DB, 0xB7FA, 0x8799, 0x97B8, 0xE75F, 0xF77E, 0xC71D, 0xD73C,
    0x26D3, 0x36F2, 0x0691, 0x16B0, 0x6657, 0x7676, 0x4615, 0x5634]

/-- CRCT as R144 lists it, entries C0 to FF. -/
def listingC0 : List Nat := [
    0xD94C, 0xC96D, 0xF90E, 0xE92F, 0x99C8, 0x89E9, 0xB98A, 0xA9AB,
    0x5844, 0x4865, 0x7806, 0x6827, 0x18C0, 0x08E1, 0x3882, 0x28A3,
    0xCB7D, 0xDB5C, 0xEB3F, 0xFB1E, 0x8BF9, 0x9BD8, 0xABBB, 0xBB9A,
    0x4A75, 0x5A54, 0x6A37, 0x7A16, 0x0AF1, 0x1AD0, 0x2AB3, 0x3A92,
    0xFD2E, 0xED0F, 0xDD6C, 0xCD4D, 0xBDAA, 0xAD8B, 0x9DE8, 0x8DC9,
    0x7C26, 0x6C07, 0x5C64, 0x4C45, 0x3CA2, 0x2C83, 0x1CE0, 0x0CC1,
    0xEF1F, 0xFF3E, 0xCF5D, 0xDF7C, 0xAF9B, 0xBFBA, 0x8FD9, 0x9FF8,
    0x6E17, 0x7E36, 0x4E55, 0x5E74, 0x2E93, 0x3EB2, 0x0ED1, 0x1EF0]

/-- The whole listing of R144. -/
def crctListing : List Nat := listing00 ++ listing40 ++ listing80 ++ listingC0

/-- The state with another value on slot op.D. -/
def withD (v : Value) (s : State) : State := { s with operands := { s.operands with d := v } }

/-- The state with another value on slot op.A. -/
def withA (v : Value) (s : State) : State := { s with operands := { s.operands with a := v } }

end Sys2Proof
end

