-- ==== Sys2Proof/Certificates/Slice0/Obligations.lean ====
section
/-! DEFINITION. The statements for the provers, in the order of OBLIGATIONS.json. -/

open Sys2Proof Sys2Proof.Machine

/-! ## Encoding -/

/-- R62, R67: every well-formed command decodes back from its own word, with every field at every value. -/
def Obligations.DecodeEncodeRoundTrip : Prop :=
  ∀ i : Instr, WellFormed i = true → decode (encode i) = .ok i

/-- R65, R67: a word that decodes is the encoding of the well-formed command it decodes to, so no two legal words stand for
one command. -/
def Obligations.LegalWordsAreEncodings : Prop :=
  ∀ (word : CmdWord) (i : Instr), decode word = .ok i → WellFormed i = true ∧ encode i = word

/-- R65: the illegal words are those of grounds (a) to (f), and every other word decodes; an illegal word raises IllegalCommand
(code 13), whatever the operands, and changes no state but STATUS; 0x00000000 is illegal by (a) and 0xFFFFFFFF by (b). -/
def Obligations.IllegalWordsRaiseIllegalCommand : Prop :=
  (∀ word : CmdWord, (∃ i, decode word = .ok i) ↔ ¬ IllegalForm word) ∧
  (∀ (s : State) (c : Command) (rest : List HostEvent), s.host = .command c :: rest → IllegalForm c.word →
    ∃ t, step s = .next t ∧ t.status = 0x10D#32 ∧ t.response = some (.err .illegalCommand) ∧ t.bs = s.bs ∧
      t.params = s.params ∧ t.host = rest) ∧
  ((0x00000000#32 : CmdWord).extractLsb' 26 6).toNat ∉ assignedOpcodes ∧ (0xFFFFFFFF#32 : CmdWord).getLsbD 24 = true

/-- R71: the worked encodings, read and written. -/
def Obligations.WorkedEncodings : Prop :=
  (decode 0x08000008#32 = .ok (.bsPop 8) ∧ encode (.bsPop 8) = 0x08000008#32) ∧
  (decode 0x48000010#32 = .ok (.serS false 16) ∧ encode (.serS false 16) = 0x48000010#32) ∧
  (decode 0x42000008#32 = .ok (.serU true 8) ∧ encode (.serU true 8) = 0x42000008#32) ∧
  (decode 0x78030004#32 = .ok (.serEnum 3 4) ∧ encode (.serEnum 3 4) = 0x78030004#32) ∧
  (decode 0x880000FF#32 = .ok (.crcTab 255) ∧ encode (.crcTab 255) = 0x880000FF#32) ∧
  (decode 0x92000000#32 = .ok .crcChks ∧ encode .crcChks = 0x92000000#32) ∧
  (decode 0xA2000000#32 = .ok (.frmBuild true) ∧ encode (.frmBuild true) = 0xA2000000#32) ∧
  (decode 0xA4000001#32 = .ok (.frmDecon false 1) ∧ encode (.frmDecon false 1) = 0xA4000001#32) ∧
  (decode 0xA6000001#32 = .ok (.frmDecon true 1) ∧ encode (.frmDecon true 1) = 0xA6000001#32) ∧
  (decode 0xF8000000#32 = .ok .stRd ∧ encode .stRd = 0xF8000000#32)

/-! ## The step -/

/-- R7, R185: a step whose offered word decodes to `i` runs `exec i` on the operands given, and then idles the operand port
(log 3); an operand the command reads that is over MAX_BUF_BYTES is refused first, and a result over it is refused last (log 6). -/
def Obligations.StepRunsTheDecodedCommand : Prop :=
  ∀ (s t : State) (c : Command) (rest : List HostEvent) (i : Instr),
    s.host = .command c :: rest → decode c.word = .ok i →
    (operandOverMax s.params i c.operands = true → step s = .refused .operandOverMaxBuf) ∧
    (operandOverMax s.params i c.operands = false →
      exec i { s with operands := c.operands, host := rest } = .next t →
      step s = if responseOverMax t.params t.response then .refused .resultOverMaxBuf
        else .next { t with operands := idleOperands })

/-- R48, R185 step 2: the command is refused exactly when a slot it reads holds a bit string or byte string longer than
MAX_BUF_BYTES, whatever type the slot should have; what stands on other slots does not matter. A bit string is too long at
more than 8 MAX_BUF_BYTES bits, on every slot; a sequence on op.L is a list of `Nat` and has no bound (log 5). -/
def Obligations.OperandOverTheBoundIsRefused : Prop :=
  ∀ (s : State) (c : Command) (rest : List HostEvent) (i : Instr),
    s.host = .command c :: rest → decode c.word = .ok i →
    (step s = .refused .operandOverMaxBuf ↔
      ∃ m, s.params.maxBufBytes = some m ∧ ∃ slot ∈ (signature i).map Prod.fst,
        (∃ d, slotValue c.operands slot = .bits d ∧ 8 * m < d.length) ∨
        (slot ≠ .l ∧ ∃ xs, slotValue c.operands slot = .seq xs ∧ m < xs.length))

/-- R200: reset gives BS = [] and STATUS = 0 whatever the state was, the command in progress leaves no effect and no response,
and the block goes on with what the host does next. The parameters stay (R203). That the response port then holds nothing
(log 2) and the operand port the idle values (log 3) is the model's choice. -/
def Obligations.ResetInputResetsTheBlock : Prop :=
  ∀ (s : State) (inProgress : Option Command) (rest : List HostEvent), s.host = .reset inProgress :: rest →
    step s = .next
      { bs := [], status := 0#32, operands := idleOperands, response := none, params := s.params, host := rest }

/-- R31: BS and STATUS at reset, as the reading commands answer them too; CRCT as listed; and the command port takes the first
command, which is answered (with operands and results of any length allowed). -/
def Obligations.ResetValues : Prop :=
  State.reset.bs = [] ∧ State.reset.status = 0x00000000#32 ∧
  Answers .stRd State.reset (.nat 0) ∧ Answers .bsLen State.reset (.nat 0) ∧ Answers .bsEnd State.reset .unit ∧
  (∀ i v : Nat, crctListing[i]? = some v → Answers (.crcTab i) State.reset (.nat v)) ∧
  (∀ (p : Config.Params) (c : Command), p.maxBufBytes = none →
    ∃ t r, step { State.reset with params := p, host := [.command c] } = .next t ∧ t.response = some r)

/-! ## The bit-sequence shifter -/

/-- R80. -/
def Obligations.BsLoadReplacesBs : Prop :=
  decode 0x04000000#32 = .ok .bsLoad ∧
  ∀ (s : State) (d : Bits), s.operands.d = .bits d →
    ((∀ m, s.params.maxBsBits = some m → d.length ≤ m) →
      exec .bsLoad s = .next { s with bs := d, response := some (.ok .unit) }) ∧
    (∀ m, s.params.maxBsBits = some m → m < d.length → Raises .bsLoad s .badOperand)

/-- R81: the popped bits are the first `n` in their order, BS keeps the others, and a pop of too many bits changes no BS. -/
def Obligations.BsPopTakesThePrefix : Prop :=
  (∀ n < 65536, decode (BitVec.ofNat 32 (0x08000000 + n)) = .ok (.bsPop n)) ∧
  ∀ (s : State) (n : Nat),
    (∀ r rest : Bits, s.bs = r ++ rest → r.length = n →
      exec (.bsPop n) s = .next { s with bs := rest, response := some (.ok (.bits r)) }) ∧
    (s.bs.length < n → Raises (.bsPop n) s .insufficientBits)

/-- R82. -/
def Obligations.BsLenCountsBs : Prop :=
  decode 0x0C000000#32 = .ok .bsLen ∧ ∀ s : State, Answers .bsLen s (.nat s.bs.length)

/-- R83. -/
def Obligations.BsEndDetectsLeftoverBits : Prop :=
  decode 0x10000000#32 = .ok .bsEnd ∧
  ∀ s : State, (s.bs = [] → Answers .bsEnd s .unit) ∧ (s.bs ≠ [] → Raises .bsEnd s .dataTooLong)

/-- R51: a BS.POP after a BS.LOAD sees the loaded bits. The idle operand port at the end is the model's choice (log 3), and so
is how a bit string is measured against MAX_BUF_BYTES (log 5). -/
def Obligations.PopAfterLoadSeesTheLoadedBits : Prop :=
  ∀ (s : State) (ops ops' : Operands) (d : Bits) (n : Nat) (rest : List HostEvent),
    s.host = .command ⟨0x04000000#32, ops⟩ :: .command ⟨BitVec.ofNat 32 (0x08000000 + n), ops'⟩ :: rest →
    ops.d = .bits d → n ≤ d.length → n < 65536 →
    (∀ m, s.params.maxBufBytes = some m → d.length ≤ 8 * m) → (∀ m, s.params.maxBsBits = some m → d.length ≤ m) →
    ∃ s₁, step s = .next s₁ ∧ s₁.response = some (.ok .unit) ∧
      step s₁ = .next { s with
        bs := d.drop n, operands := idleOperands, response := some (.ok (.bits (d.take n))), host := rest }

/-! ## The bit-reversal unit -/

/-- R84. -/
def Obligations.RevBReversesAByte : Prop :=
  decode 0x20000000#32 = .ok .revB ∧
  ∀ s : State,
    (∀ b : Byte, s.operands.a = .num ((b.toNat : Int) : Rat) → ∃ r : Byte, Reversed b r ∧ Answers .revB s (.nat r.toNat)) ∧
    ((∀ b : Byte, s.operands.a ≠ .num ((b.toNat : Int) : Rat)) → Raises .revB s .badOperand)

/-- R85. -/
def Obligations.RevBsReversesEveryByte : Prop :=
  decode 0x24000000#32 = .ok .revBs ∧
  ∀ (s : State) (d : Bytes), s.operands.d = bytesValue d →
    ∃ r, List.Forall₂ Reversed d r ∧ Answers .revBs s (.bytes r)

/-- R86: bit `i` of byte `j` of the result is bit `7 - i` of byte `j` of the operand. -/
def Obligations.RevIReversesInsideBytes : Prop :=
  (∀ n < 65536, decode (BitVec.ofNat 32 (0x28000000 + n)) = .ok (.revI n)) ∧
  ∀ (s : State) (n : Nat),
    (n = 0 → Raises (.revI n) s .badOperand) ∧
    (∀ v : Int, s.operands.a = .num (v : Rat) → v < 0 ∨ 2 ^ (8 * n) ≤ v → Raises (.revI n) s .badOperand) ∧
    (∀ v : Nat, n ≠ 0 → s.operands.a = .num (v : Rat) → v < 2 ^ (8 * n) →
      ∃ r : Nat, r < 2 ^ (8 * n) ∧
        (∀ j < n, ∀ k < 8, r.testBit (8 * j + k) = v.testBit (8 * j + (7 - k))) ∧
        Answers (.revI n) s (.nat r))

/-- R84, R85, R86: each reversal command applied to its own result gives the operand back. -/
def Obligations.ReversingTwiceIsTheIdentity : Prop :=
  (∀ (s : State) (b r : Nat), s.operands.a = .num (b : Rat) → Answers .revB s (.nat r) →
    Answers .revB (withA (.num (r : Rat)) s) (.nat b)) ∧
  (∀ (s : State) (d r : Bytes), s.operands.d = bytesValue d → Answers .revBs s (.bytes r) →
    Answers .revBs (withD (bytesValue r) s) (.bytes d)) ∧
  (∀ (s : State) (n v r : Nat), s.operands.a = .num (v : Rat) → Answers (.revI n) s (.nat r) →
    Answers (.revI n) (withA (.num (r : Rat)) s) (.nat v))

/-! ## The field codec -/

/-- R102. -/
def Obligations.SerUWritesAnUnsignedField : Prop :=
  (∀ c : Bool, ∀ n < 65536, decode (BitVec.ofNat 32 (0x40000000 + c.toNat * 2 ^ 25 + n)) = .ok (.serU c n)) ∧
  ∀ (s : State) (c : Bool) (n : Nat) (v : Int), s.operands.a = .num (v : Rat) →
    (n = 0 → Raises (.serU c n) s .badIntegerSize) ∧
    (n ≠ 0 → PutsUnsigned (.serU c n) s n c v)

/-- R103. -/
def Obligations.DesUReadsAnUnsignedField : Prop :=
  decode 0x44000000#32 = .ok .desU ∧
  ∀ (s : State) (d : Bits), s.operands.d = .bits d →
    (d = [] → Raises .desU s .badIntegerSize) ∧
    (d ≠ [] → ∃ v, Spells d v ∧ Answers .desU s (.nat v))

/-- R104. -/
def Obligations.SerSWritesASignedField : Prop :=
  (∀ c : Bool, ∀ n < 65536, decode (BitVec.ofNat 32 (0x48000000 + c.toNat * 2 ^ 25 + n)) = .ok (.serS c n)) ∧
  ∀ (s : State) (c : Bool) (n : Nat) (v : Int), s.operands.a = .num (v : Rat) →
    (n = 0 → Raises (.serS c n) s .badIntegerSize) ∧
    (n ≠ 0 → PutsSigned (.serS c n) s n c v)

/-- R105. -/
def Obligations.DesSReadsASignedField : Prop :=
  decode 0x4C000000#32 = .ok .desS ∧
  ∀ (s : State) (d : Bits), s.operands.d = .bits d →
    (d = [] → Raises .desS s .badIntegerSize) ∧
    (d ≠ [] → ∃ v, SpellsInt d v ∧ Answers .desS s (.int v))

/-- R106, R107: the quotient is rounded half away from zero, and then the unsigned step is SER.U's. -/
def Obligations.SerRuScalesAndRounds : Prop :=
  (∀ c : Bool, ∀ n < 65536, decode (BitVec.ofNat 32 (0x50000000 + c.toNat * 2 ^ 25 + n)) = .ok (.serRu c n)) ∧
  ∀ (s : State) (c : Bool) (n : Nat) (v res : Rat), s.operands.a = .num v → s.operands.b = .num res →
    (n = 0 → Raises (.serRu c n) s .badIntegerSize) ∧
    (n ≠ 0 → res ≤ 0 → Raises (.serRu c n) s .badOperand) ∧
    (n ≠ 0 → 0 < res → ∃ r, RoundsTo (v / res) r ∧ PutsUnsigned (.serRu c n) s n c r)

/-- R108. -/
def Obligations.DesRuMultipliesBack : Prop :=
  decode 0x54000000#32 = .ok .desRu ∧
  ∀ (s : State) (d : Bits) (res : Rat), s.operands.d = .bits d → s.operands.b = .num res →
    (d = [] → Raises .desRu s .badIntegerSize) ∧
    (d ≠ [] → res ≤ 0 → Raises .desRu s .badOperand) ∧
    (d ≠ [] → 0 < res → ∃ v : Nat, Spells d v ∧ Answers .desRu s (.rat ((v : Rat) * res)))

/-- R106, R109. -/
def Obligations.SerRsScalesAndRounds : Prop :=
  (∀ c : Bool, ∀ n < 65536, decode (BitVec.ofNat 32 (0x58000000 + c.toNat * 2 ^ 25 + n)) = .ok (.serRs c n)) ∧
  ∀ (s : State) (c : Bool) (n : Nat) (v res : Rat), s.operands.a = .num v → s.operands.b = .num res →
    (n = 0 → Raises (.serRs c n) s .badIntegerSize) ∧
    (n ≠ 0 → res ≤ 0 → Raises (.serRs c n) s .badOperand) ∧
    (n ≠ 0 → 0 < res → ∃ r, RoundsTo (v / res) r ∧ PutsSigned (.serRs c n) s n c r)

/-- R110. -/
def Obligations.DesRsMultipliesBack : Prop :=
  decode 0x5C000000#32 = .ok .desRs ∧
  ∀ (s : State) (d : Bits) (res : Rat), s.operands.d = .bits d → s.operands.b = .num res →
    (d = [] → Raises .desRs s .badIntegerSize) ∧
    (d ≠ [] → res ≤ 0 → Raises .desRs s .badOperand) ∧
    (d ≠ [] → 0 < res → ∃ v : Int, SpellsInt d v ∧ Answers .desRs s (.rat ((v : Rat) * res)))

/-- R106, R111. -/
def Obligations.SerRoSubtractsTheOffset : Prop :=
  (∀ c : Bool, ∀ n < 65536, decode (BitVec.ofNat 32 (0x60000000 + c.toNat * 2 ^ 25 + n)) = .ok (.serRo c n)) ∧
  ∀ (s : State) (c : Bool) (n : Nat) (v off res : Rat),
    s.operands.a = .num v → s.operands.b = .num off → s.operands.c = .num res →
    (n = 0 → Raises (.serRo c n) s .badIntegerSize) ∧
    (n ≠ 0 → res ≤ 0 → Raises (.serRo c n) s .badOperand) ∧
    (n ≠ 0 → 0 < res → ∃ r, RoundsTo ((v - off) / res) r ∧ PutsUnsigned (.serRo c n) s n c r)

/-- R112. -/
def Obligations.DesRoAddsTheOffset : Prop :=
  decode 0x64000000#32 = .ok .desRo ∧
  ∀ (s : State) (d : Bits) (off res : Rat),
    s.operands.d = .bits d → s.operands.b = .num off → s.operands.c = .num res →
    (d = [] → Raises .desRo s .badIntegerSize) ∧
    (d ≠ [] → res ≤ 0 → Raises .desRo s .badOperand) ∧
    (d ≠ [] → 0 < res → ∃ v : Nat, Spells d v ∧ Answers .desRo s (.rat (off + res * (v : Rat))))

/-- R113. -/
def Obligations.SerBoolWritesOneBit : Prop :=
  decode 0x68000000#32 = .ok .serBool ∧
  ∀ s : State,
    (s.operands.a = .num 0 → Answers .serBool s (.bits [false])) ∧
    (s.operands.a = .num 1 → Answers .serBool s (.bits [true])) ∧
    (s.operands.a ≠ .num 0 → s.operands.a ≠ .num 1 → Raises .serBool s .badOperand)

/-- R114. -/
def Obligations.DesBoolReadsOneBit : Prop :=
  decode 0x6C000000#32 = .ok .desBool ∧
  ∀ (s : State) (d : Bits), s.operands.d = .bits d →
    (∀ b, d = [b] → Answers .desBool s (.bool b)) ∧
    (d.length ≠ 1 → Raises .desBool s .badIntegerSize)

/-- R115: byte `j` of the field is byte `j` of the text, or a space beyond its end. -/
def Obligations.SerTxtPadsOrTruncates : Prop :=
  (∀ n < 65536, decode (BitVec.ofNat 32 (0x70000000 + n)) = .ok (.serTxt n)) ∧
  ∀ (s : State) (n : Nat) (d : Bytes), s.operands.d = bytesValue d →
    (n = 0 ∨ n % 8 ≠ 0 → Raises (.serTxt n) s .badOperand) ∧
    ((∃ b ∈ d, 0x7F < b.toNat) → Raises (.serTxt n) s .badOperand) ∧
    (n ≠ 0 → n % 8 = 0 → (∀ b ∈ d, b.toNat ≤ 0x7F) →
      ∃ (t : Bytes) (b : Bits), t.length = n / 8 ∧ (∀ j < n / 8, t[j]? = some (d.getD j 0x20#8)) ∧
        SpellsBytes b t ∧ Answers (.serTxt n) s (.bits b))

/-- R116. -/
def Obligations.DesTxtReturnsEveryByte : Prop :=
  decode 0x74000000#32 = .ok .desTxt ∧
  ∀ (s : State) (d : Bits), s.operands.d = .bits d →
    (d = [] ∨ d.length % 8 ≠ 0 → Raises .desTxt s .badOperand) ∧
    (d ≠ [] → d.length % 8 = 0 → ∃ t, SpellsBytes d t ∧ Answers .desTxt s (.bytes t))

/-- R117. -/
def Obligations.SerEnumWritesAMember : Prop :=
  (∀ k < 256, ∀ n < 65536, decode (BitVec.ofNat 32 (0x78000000 + k * 2 ^ 16 + n)) = .ok (.serEnum k n)) ∧
  ∀ (s : State) (k n : Nat) (v : Int), s.operands.a = .num (v : Rat) →
    (n = 0 → Raises (.serEnum k n) s .badIntegerSize) ∧
    (n ≠ 0 → ¬ (0 ≤ v ∧ v.toNat ∈ s.params.enumTables.getD k []) → Raises (.serEnum k n) s .unknownEnumValue) ∧
    (n ≠ 0 → 0 ≤ v → v.toNat ∈ s.params.enumTables.getD k [] → 2 ^ n - 1 < v →
      Raises (.serEnum k n) s .badIntegerSize) ∧
    (n ≠ 0 → 0 ≤ v → v.toNat ∈ s.params.enumTables.getD k [] → v ≤ 2 ^ n - 1 →
      ∃ b, b.length = n ∧ Spells b v.toNat ∧ Answers (.serEnum k n) s (.bits b))

/-- R118. -/
def Obligations.DesEnumReadsAMember : Prop :=
  (∀ k < 256, decode (BitVec.ofNat 32 (0x7C000000 + k * 2 ^ 16)) = .ok (.desEnum k)) ∧
  ∀ (s : State) (k : Nat) (d : Bits), s.operands.d = .bits d →
    (d = [] → Raises (.desEnum k) s .badIntegerSize) ∧
    (d ≠ [] → ∃ v, Spells d v ∧
      (v ∈ s.params.enumTables.getD k [] → Answers (.desEnum k) s (.nat v)) ∧
      (v ∉ s.params.enumTables.getD k [] → Raises (.desEnum k) s .unknownEnumValue))

/-- R120: what SER.U wrote DES.U reads back, and what SER.S wrote DES.S reads back, saturated where the SER command saturates. -/
def Obligations.IntegerFieldsRoundTrip : Prop :=
  ∀ (s : State) (c : Bool) (n : Nat) (v : Int), n ≠ 0 → s.operands.a = .num (v : Rat) →
    (0 ≤ v → c = true ∨ v ≤ 2 ^ n - 1 →
      ∃ b, b.length = n ∧ Answers (.serU c n) s (.bits b) ∧
        Answers .desU (withD (.bits b) s) (.nat (min v (2 ^ n - 1)).toNat)) ∧
    (c = true ∨ (-2 ^ (n - 1) ≤ v ∧ v ≤ 2 ^ (n - 1) - 1) →
      ∃ b, b.length = n ∧ Answers (.serS c n) s (.bits b) ∧
        Answers .desS (withD (.bits b) s) (.int (max (-2 ^ (n - 1)) (min v (2 ^ (n - 1) - 1)))))

/-- R121: a scaled value comes back as the nearest value on the grid. -/
def Obligations.ScaledFieldsRoundTripOnTheGrid : Prop :=
  ∀ (s : State) (c : Bool) (n : Nat) (x off res : Rat) (r : Int), n ≠ 0 → 0 < res → s.operands.a = .num x →
    (s.operands.b = .num res → RoundsTo (x / res) r → 0 ≤ r → r ≤ 2 ^ n - 1 →
      ∃ b, Answers (.serRu c n) s (.bits b) ∧ Answers .desRu (withD (.bits b) s) (.rat (res * r))) ∧
    (s.operands.b = .num res → RoundsTo (x / res) r → -2 ^ (n - 1) ≤ r → r ≤ 2 ^ (n - 1) - 1 →
      ∃ b, Answers (.serRs c n) s (.bits b) ∧ Answers .desRs (withD (.bits b) s) (.rat (res * r))) ∧
    (s.operands.b = .num off → s.operands.c = .num res → RoundsTo ((x - off) / res) r → 0 ≤ r → r ≤ 2 ^ n - 1 →
      ∃ b, Answers (.serRo c n) s (.bits b) ∧ Answers .desRo (withD (.bits b) s) (.rat (off + res * r)))

/-! ## The byte stuffer -/

/-- R141. -/
def Obligations.EscStuffsFlagsAndEscapes : Prop :=
  decode 0x80000000#32 = .ok .esc ∧
  ∀ (s : State) (d : Bytes), s.operands.d = bytesValue d →
    Answers .esc s (.bytes (d.flatMap stuffed)) ∧
    0x7E#8 ∉ d.flatMap stuffed ∧
    (d.flatMap stuffed).length = d.length + d.countP (fun b => b == 0x7D#8 || b == 0x7E#8)

/-- R142: every byte string is a row of stuffed units, which unescapes to what they stand for, or such a row with a
trailing 0x7D, which is InvalidFrame. -/
def Obligations.UnescReadsStuffedUnits : Prop :=
  decode 0x84000000#32 = .ok .unesc ∧
  (∀ d : Bytes, ∃ units, UnitsOk units ∧ (d = wire units ∨ d = wire units ++ [0x7D#8])) ∧
  ∀ (s : State) (units : List (Bool × Byte)), UnitsOk units →
    (s.operands.d = bytesValue (wire units) → Answers .unesc s (.bytes (content units))) ∧
    (s.operands.d = bytesValue (wire units ++ [0x7D#8]) → Raises .unesc s .invalidFrame)

/-- R155 (a): UNESC of the result of ESC gives the byte string back. -/
def Obligations.UnescInvertsEsc : Prop :=
  ∀ (s : State) (d : Bytes), s.operands.d = bytesValue d →
    ∃ o, Answers .esc s (.bytes o) ∧ Answers .unesc (withD (bytesValue o) s) (.bytes d)

/-- R155 (b): ESC is injective, and its results are exactly the byte strings without 0x7E in which every 0x7D is followed by
0x5D or 0x5E. -/
def Obligations.EscResultsAreTheStuffedStrings : Prop :=
  ∀ (s : State) (o : Bytes),
    ((∃ d, Answers .esc (withD (bytesValue d) s) (.bytes o)) ↔
      (0x7E#8 ∉ o ∧ ∀ j, o[j]? = some 0x7D#8 → o[j + 1]? = some 0x5D#8 ∨ o[j + 1]? = some 0x5E#8)) ∧
    (∀ d d', Answers .esc (withD (bytesValue d) s) (.bytes o) → Answers .esc (withD (bytesValue d') s) (.bytes o) → d = d')

/-! ## The CRC generator -/

/-- R143, R144, R145: CRC.TAB answers the entry of the listing of R144. -/
def Obligations.CrcTabReadsTheListedTable : Prop :=
  (∀ i < 256, decode (BitVec.ofNat 32 (0x88000000 + i)) = .ok (.crcTab i)) ∧
  crctListing.length = 256 ∧
  ∀ (s : State) (i v : Nat), crctListing[i]? = some v → Answers (.crcTab i) s (.nat v)

/-- R146, R147, R148: the table-driven update, from 0, over the bytes in order, and the low byte first. -/
def Obligations.CrcGenEmitsLowByteFirst : Prop :=
  decode 0x8C000000#32 = .ok .crcGen ∧
  ∀ (s : State) (d : Bytes), s.operands.d = bytesValue d →
    ∃ c : BitVec 16,
      c = d.foldl (fun (a : BitVec 16) b => crcTable ((a >>> 8).setWidth 8) ^^^ (a <<< 8) ^^^ b.setWidth 16) 0#16 ∧
      Answers .crcGen s (.bytes [BitVec.ofNat 8 (c.toNat % 256), BitVec.ofNat 8 (c.toNat / 256)])

/-- R143, R146: the table-driven CRC is the remainder of the message bits, fed most significant bit first into a register with
feedback 0x1021 that starts at 0. -/
def Obligations.CrcGenIsTheBitSerialRemainder : Prop :=
  ∀ (s : State) (d : Bytes), s.operands.d = bytesValue d →
    Answers .crcGen s (.bytes [(serialCrc d).setWidth 8, (serialCrc d >>> 8).setWidth 8])

/-- R149: CRC.CHK answers `Unit` when op.E is `crcBytes` of op.D (R147), which is what CRC.GEN gives, and raises InvalidCRC on
any other two bytes. -/
def Obligations.CrcChkComparesWithCrcGen : Prop :=
  decode 0x90000000#32 = .ok .crcChk ∧
  ∀ (s : State) (d e : Bytes), s.operands.d = bytesValue d → s.operands.e = bytesValue e →
    (e.length ≠ 2 → Raises .crcChk s .badOperand) ∧
    (e = crcBytes d → exec .crcChk s = .next { s with response := some (.ok .unit) }) ∧
    (e.length = 2 → e ≠ crcBytes d → Raises .crcChk s .invalidCrc) ∧
    (Answers .crcGen s (.bytes e) → Answers .crcChk s .unit) ∧
    (e.length = 2 → ¬ Answers .crcGen s (.bytes e) → Raises .crcChk s .invalidCrc)

/-- R150: CRC.CHKS answers whether the two bytes of op.E are `crcBytes` of op.D (R147), which is what CRC.GEN gives. -/
def Obligations.CrcChksComparesSoftly : Prop :=
  decode 0x92000000#32 = .ok .crcChks ∧
  ∀ (s : State) (d e : Bytes), s.operands.d = bytesValue d → s.operands.e = bytesValue e →
    (e.length ≠ 2 → Raises .crcChks s .badOperand) ∧
    (e.length = 2 → exec .crcChks s = .next { s with response := some (.ok (.bool (decide (e = crcBytes d)))) }) ∧
    (Answers .crcGen s (.bytes e) → Answers .crcChks s (.bool true)) ∧
    (e.length = 2 → ¬ Answers .crcGen s (.bytes e) → Answers .crcChks s (.bool false))

/-! ## Frames -/

/-- R151, R152, R155 (d): the flags around the stuffed region, which holds no other flag, the region reversed per byte when F is
set, the CRC over the region before reversal; and the three errors. -/
def Obligations.FrmBuildAssemblesAFrame : Prop :=
  (∀ inv : Bool, decode (BitVec.ofNat 32 (0xA0000000 + inv.toNat * 2 ^ 25)) = .ok (.frmBuild inv)) ∧
  ∀ (s : State) (inv : Bool) (ids : List Nat) (p : Bits),
    s.operands.l = .seq (ids.map Int.ofNat) → s.operands.d = .bits p →
    (ids = [] → Raises (.frmBuild inv) s .badOperand) ∧
    ((∃ id ∈ ids, 255 < id) → Raises (.frmBuild inv) s .badOperand) ∧
    (p.length % 8 ≠ 0 → Raises (.frmBuild inv) s .badOperand) ∧
    (ids ≠ [] → (∀ id ∈ ids, id ≤ 255) → p.length % 8 = 0 →
      ∃ payload u, SpellsBytes p payload ∧
        InvertedBy inv (ids.map (BitVec.ofNat 8) ++ payload ++ crcBytes (ids.map (BitVec.ofNat 8) ++ payload)) u ∧
        0x7E#8 ∉ u.flatMap stuffed ∧ Answers (.frmBuild inv) s (.bytes (0x7E#8 :: u.flatMap stuffed ++ [0x7E#8])))

/-- R153: the checks in their order, and the IDs and payload bits of a good frame. -/
def Obligations.FrmDeconDisassemblesAFrame : Prop :=
  (∀ inv : Bool, ∀ m < 65536,
    decode (BitVec.ofNat 32 (0xA4000000 + inv.toNat * 2 ^ 25 + m)) = .ok (.frmDecon inv m)) ∧
  ∀ (s : State) (inv : Bool) (m : Nat) (d : Bytes), s.operands.d = bytesValue d →
    (m = 0 → Raises (.frmDecon inv m) s .badOperand) ∧
    (m ≠ 0 → (¬ ∃ middle, d = 0x7E#8 :: middle ++ [0x7E#8]) → Raises (.frmDecon inv m) s .missingFlagBytes) ∧
    (∀ units, m ≠ 0 → UnitsOk units → d = 0x7E#8 :: (wire units ++ [0x7D#8]) ++ [0x7E#8] →
      Raises (.frmDecon inv m) s .invalidFrame) ∧
    (∀ units u, m ≠ 0 → UnitsOk units → d = 0x7E#8 :: wire units ++ [0x7E#8] → InvertedBy inv (content units) u →
      (u.length < m + 2 → Raises (.frmDecon inv m) s .invalidFrame) ∧
      (∀ r c : Bytes, u = r ++ c → c.length = 2 → m ≤ r.length →
        (crcBytes r ≠ c → Raises (.frmDecon inv m) s .invalidCrc) ∧
        (crcBytes r = c → ∃ p, SpellsBytes p (r.drop m) ∧
          Answers (.frmDecon inv m) s (.message ((r.take m).map BitVec.toNat) p))))

/-- R153: disassembling an assembled frame, with the same F and as many IDs, gives the IDs and the payload back. -/
def Obligations.FrmDeconInvertsFrmBuild : Prop :=
  ∀ (s : State) (inv : Bool) (ids : List Nat) (p : Bits),
    s.operands.l = .seq (ids.map Int.ofNat) → s.operands.d = .bits p →
    ids ≠ [] → (∀ id ∈ ids, id ≤ 255) → p.length % 8 = 0 →
    ∃ f, Answers (.frmBuild inv) s (.bytes f) ∧
      Answers (.frmDecon inv ids.length) (withD (bytesValue f) s) (.message ids p)

/-- R154: the segments between flags, the empty ones skipped, each with its own two flags, in order. -/
def Obligations.FrmSplitCutsAtFlags : Prop :=
  decode 0xA8000000#32 = .ok .frmSplit ∧
  ∀ (s : State) (d : Bytes), s.operands.d = bytesValue d →
    (d = [] → Answers .frmSplit s (.frames [])) ∧
    (d ≠ [] → d.head? ≠ some 0x7E#8 ∨ d.getLast? ≠ some 0x7E#8 → Raises .frmSplit s .missingFlagBytes) ∧
    (d.head? = some 0x7E#8 → d.getLast? = some 0x7E#8 →
      ∃ segs : List Bytes, (∀ seg ∈ segs, 0x7E#8 ∉ seg) ∧ d = 0x7E#8 :: segs.flatMap (· ++ [0x7E#8]) ∧
        Answers .frmSplit s
          (.frames ((segs.filter (fun seg => !seg.isEmpty)).map fun seg => 0x7E#8 :: seg ++ [0x7E#8])))

/-- R154: two built frames, with doubled or with shared flags between them, split into the two frames. -/
def Obligations.FrmSplitRecoversBuiltFrames : Prop :=
  ∀ (s s₁ s₂ : State) (inv₁ inv₂ : Bool) (f g : Bytes),
    Answers (.frmBuild inv₁) s₁ (.bytes f) → Answers (.frmBuild inv₂) s₂ (.bytes g) →
    Answers .frmSplit (withD (bytesValue (f ++ g)) s) (.frames [f, g]) ∧
    Answers .frmSplit (withD (bytesValue (f ++ g.drop 1)) s) (.frames [f, g])

/-! ## STATUS -/

/-- R23, R170: the value read is ERRCODE in bits 3:0 and ERR in bit 8, and every other bit reads 0, in every state. -/
def Obligations.StRdReadsTheFields : Prop :=
  decode 0xF8000000#32 = .ok .stRd ∧
  ∀ s : State, ∃ n, Answers .stRd s (.nat n) ∧ n < 2 ^ 32 ∧
    ∀ j < 32, n.testBit j = (s.status.getLsbD j && (decide (j < 4) || decide (j = 8)))

/-- R171. -/
def Obligations.StClrClearsStatus : Prop :=
  decode 0xFC000000#32 = .ok .stClr ∧
  ∀ s : State, exec .stClr s = .next { s with status := 0#32, response := some (.ok .unit) }

/-! ## The whole machine -/

/-- R26, R190, R209: every command, on every operand and in every state, ends in a response, and leaves the operands, the
parameters and the host's further events alone. -/
def Obligations.EveryCommandAnswersOnce : Prop :=
  ∀ (i : Instr) (s : State), ∃ (t : State) (r : Response), exec i s = .next t ∧
    t = { s with bs := t.bs, status := t.status, response := some r }

/-- R184: a command that ends in an error changes STATUS to ERR = 1 and the code, and nothing else. -/
def Obligations.AnErrorChangesStatusAlone : Prop :=
  ∀ (i : Instr) (s t : State) (e : ErrorKind), exec i s = .next t → t.response = some (.err e) → Raises i s e

/-- R23: a command that ends in Ok leaves STATUS as it was, ST.CLR apart. -/
def Obligations.OkLeavesStatusAlone : Prop :=
  ∀ (i : Instr) (s t : State) (v : Result), exec i s = .next t → t.response = some (.ok v) → i ≠ .stClr →
    t.status = s.status

/-- R22: only BS.LOAD and BS.POP change BS. -/
def Obligations.OnlyBsLoadAndBsPopChangeBs : Prop :=
  ∀ (i : Instr) (s t : State), exec i s = .next t → i ≠ .bsLoad → (∀ n, i ≠ .bsPop n) → t.bs = s.bs

/-- R181: a legal command raises no error but those whose "raised by" column names it. -/
def Obligations.CommandsRaiseOnlyTheirErrors : Prop :=
  ∀ (i : Instr) (s t : State) (e : ErrorKind), exec i s = .next t → t.response = some (.err e) → e ∈ mayRaise i

/-- R25, R185 step 3: a slot the command reads that does not hold its type raises BadOperand, before any check of the
command's own rule. -/
def Obligations.WrongOperandTypeRaisesBadOperand : Prop :=
  ∀ (i : Instr) (s : State), wellTyped i s.operands = false → Raises i s .badOperand

/-- R49, R50: a pure command's response depends on its operands and the parameters alone. -/
def Obligations.PureCommandsRepeat : Prop :=
  ∀ (i : Instr) (s s' t t' : State), touchesState i = false → s.operands = s'.operands → s.params = s'.params →
    exec i s = .next t → exec i s' = .next t' → t.response = t'.response

/-- R20, R22, R23, R184: every step keeps the invariant of the block's state, from every state that has it. Its clause on the
operand port rests on the model's idle values (log 3). -/
def Obligations.StepsKeepTheInvariant : Prop :=
  ∀ s t : State, Inv s → step s = .next t → Inv t

/-- R31: the state after reset has the invariant; the idle ports are the model's choice (log 2, log 3). -/
def Obligations.ResetHasTheInvariant : Prop := Inv State.reset
end

