-- ==== Sys2Proof/Laws/Bits.lean ====
section
/-! SUPPORT. The small lemmas of the conversions of 00_scope.md R11. -/

namespace Sys2Proof.Laws

open Machine

@[simp] theorem uint_nil : uint [] = 0 := rfl

@[simp] theorem uint_cons (b : Bool) (s : Bits) : uint (b :: s) = b.toNat * 2 ^ s.length + uint s := rfl

theorem uint_lt (s : Bits) : uint s < 2 ^ s.length := by
  induction s with
  | nil => simp
  | cons b s ih =>
    have hb : b.toNat ≤ 1 := Bool.toNat_le b
    have : b.toNat * 2 ^ s.length ≤ 1 * 2 ^ s.length := Nat.mul_le_mul_right _ hb
    simp only [uint_cons, List.length_cons, pow_succ]
    omega

@[simp] theorem natBits_length (x n : Nat) : (natBits x n).length = n := by
  induction n with
  | zero => rfl
  | succ n ih => simp [natBits, ih]

theorem uint_natBits (x n : Nat) : uint (natBits x n) = x % 2 ^ n := by
  induction n with
  | zero => simp [natBits, Nat.mod_one]
  | succ n ih =>
    rw [natBits, uint_cons, natBits_length, ih, Nat.mod_pow_succ, Nat.testBit_eq_decide_div_mod_eq]
    rcases Nat.mod_two_eq_zero_or_one (x / 2 ^ n) with h | h <;> (simp [h]; try omega)

@[simp] theorem bitsOf_length (v : Int) (n : Nat) : (bitsOf v n).length = n := natBits_length _ _

/-- `uint (bitsOf v n) = v mod 2^n` (R11). -/
theorem uint_bitsOf (v : Int) (n : Nat) : (uint (bitsOf v n) : Int) = v % 2 ^ n := by
  have h0 : (0 : Int) < 2 ^ n := by positivity
  have h1 : 0 ≤ v % 2 ^ n := Int.emod_nonneg _ h0.ne'
  have h2 : v % 2 ^ n < 2 ^ n := Int.emod_lt_of_pos _ h0
  rw [bitsOf, uint_natBits, Nat.mod_eq_of_lt]
  · omega
  · zify; omega

@[simp] theorem byteBits_length (b : Byte) : (byteBits b).length = 8 := natBits_length _ _

@[simp] theorem bytesToBits_length (d : Bytes) : (bytesToBits d).length = 8 * d.length := by
  induction d with
  | nil => rfl
  | cons b d ih => simp [bytesToBits, ih]; ring

theorem rev8_bit (b : Byte) (i : Nat) (h : i < 8) : (rev8 b).getLsbD i = b.getLsbD (7 - i) := by
  revert b
  interval_cases i <;> decide

/-- Reversing twice is the identity (R84). -/
@[simp] theorem rev8_rev8 (b : Byte) : rev8 (rev8 b) = b := by
  revert b; decide

end Sys2Proof.Laws
end

