-- ==== Sys2Proof/Laws/State.lean ====
section
/-! SUPPORT. One lemma per field per update of State, true by rfl. -/

namespace Sys2Proof.Laws

open Machine

@[simp] theorem respond_bs (v : Result) (s : State) : (respond v s).bs = s.bs := rfl
@[simp] theorem respond_status (v : Result) (s : State) : (respond v s).status = s.status := rfl
@[simp] theorem respond_operands (v : Result) (s : State) : (respond v s).operands = s.operands := rfl
@[simp] theorem respond_response (v : Result) (s : State) : (respond v s).response = some (.ok v) := rfl
@[simp] theorem respond_params (v : Result) (s : State) : (respond v s).params = s.params := rfl
@[simp] theorem respond_host (v : Result) (s : State) : (respond v s).host = s.host := rfl

@[simp] theorem raise_bs (e : ErrorKind) (s : State) : (raise e s).bs = s.bs := rfl
@[simp] theorem raise_status (e : ErrorKind) (s : State) : (raise e s).status = errorStatus e := rfl
@[simp] theorem raise_operands (e : ErrorKind) (s : State) : (raise e s).operands = s.operands := rfl
@[simp] theorem raise_response (e : ErrorKind) (s : State) : (raise e s).response = some (.err e) := rfl
@[simp] theorem raise_params (e : ErrorKind) (s : State) : (raise e s).params = s.params := rfl
@[simp] theorem raise_host (e : ErrorKind) (s : State) : (raise e s).host = s.host := rfl

@[simp] theorem setBs_bs (v : Bits) (s : State) : (setBs v s).bs = v := rfl
@[simp] theorem setBs_status (v : Bits) (s : State) : (setBs v s).status = s.status := rfl
@[simp] theorem setBs_operands (v : Bits) (s : State) : (setBs v s).operands = s.operands := rfl
@[simp] theorem setBs_response (v : Bits) (s : State) : (setBs v s).response = s.response := rfl
@[simp] theorem setBs_params (v : Bits) (s : State) : (setBs v s).params = s.params := rfl
@[simp] theorem setBs_host (v : Bits) (s : State) : (setBs v s).host = s.host := rfl

@[simp] theorem setStatus_bs (v : BitVec 32) (s : State) : (setStatus v s).bs = s.bs := rfl
@[simp] theorem setStatus_status (v : BitVec 32) (s : State) : (setStatus v s).status = v := rfl
@[simp] theorem setStatus_operands (v : BitVec 32) (s : State) : (setStatus v s).operands = s.operands := rfl
@[simp] theorem setStatus_response (v : BitVec 32) (s : State) : (setStatus v s).response = s.response := rfl
@[simp] theorem setStatus_params (v : BitVec 32) (s : State) : (setStatus v s).params = s.params := rfl
@[simp] theorem setStatus_host (v : BitVec 32) (s : State) : (setStatus v s).host = s.host := rfl

@[simp] theorem accept_bs (c : Command) (rest : List HostEvent) (s : State) : (accept c rest s).bs = s.bs := rfl
@[simp] theorem accept_status (c : Command) (rest : List HostEvent) (s : State) : (accept c rest s).status = s.status := rfl
@[simp] theorem accept_operands (c : Command) (rest : List HostEvent) (s : State) : (accept c rest s).operands = c.operands := rfl
@[simp] theorem accept_response (c : Command) (rest : List HostEvent) (s : State) : (accept c rest s).response = s.response := rfl
@[simp] theorem accept_params (c : Command) (rest : List HostEvent) (s : State) : (accept c rest s).params = s.params := rfl
@[simp] theorem accept_host (c : Command) (rest : List HostEvent) (s : State) : (accept c rest s).host = rest := rfl

@[simp] theorem release_bs (s : State) : (release s).bs = s.bs := rfl
@[simp] theorem release_status (s : State) : (release s).status = s.status := rfl
@[simp] theorem release_operands (s : State) : (release s).operands = idleOperands := rfl
@[simp] theorem release_response (s : State) : (release s).response = s.response := rfl
@[simp] theorem release_params (s : State) : (release s).params = s.params := rfl
@[simp] theorem release_host (s : State) : (release s).host = s.host := rfl

@[simp] theorem resetState_bs (rest : List HostEvent) (s : State) : (resetState rest s).bs = [] := rfl
@[simp] theorem resetState_status (rest : List HostEvent) (s : State) : (resetState rest s).status = 0#32 := rfl
@[simp] theorem resetState_operands (rest : List HostEvent) (s : State) : (resetState rest s).operands = idleOperands := rfl
@[simp] theorem resetState_response (rest : List HostEvent) (s : State) : (resetState rest s).response = none := rfl
@[simp] theorem resetState_params (rest : List HostEvent) (s : State) : (resetState rest s).params = s.params := rfl
@[simp] theorem resetState_host (rest : List HostEvent) (s : State) : (resetState rest s).host = rest := rfl

@[simp] theorem reset_bs : State.reset.bs = [] := rfl
@[simp] theorem reset_status : State.reset.status = 0#32 := rfl
@[simp] theorem reset_operands : State.reset.operands = idleOperands := rfl
@[simp] theorem reset_response : State.reset.response = none := rfl
@[simp] theorem reset_params : State.reset.params = Config.reference := rfl
@[simp] theorem reset_host : State.reset.host = [] := rfl

end Sys2Proof.Laws
end

