-- ==== Sys2Proof/Laws/Ops.lean ====
section
/-! SUPPORT. What each shared operation can do, said once. -/

namespace Sys2Proof.Laws

open Machine

/-! ## Replies -/

@[simp] theorem settle_ok (s : State) (v : Result) : settle s (.ok v) = respond v s := rfl

@[simp] theorem settle_error (s : State) (e : ErrorKind) : settle s (.error e) = raise e s := rfl

/-- A settled reply touches STATUS and the response alone. -/
theorem settle_frame (s : State) (r : Reply) :
    (settle s r).bs = s.bs ∧ (settle s r).operands = s.operands ∧ (settle s r).params = s.params ∧
      (settle s r).host = s.host := by
  cases r <;> exact ⟨rfl, rfl, rfl, rfl⟩

/-- A settled reply is a result with STATUS kept, or an error with STATUS written. -/
theorem settle_cases (s : State) (r : Reply) :
    (∃ v, r = .ok v ∧ settle s r = respond v s) ∨ (∃ e, r = .error e ∧ settle s r = raise e s) := by
  cases r with
  | ok v => exact .inl ⟨v, rfl, rfl⟩
  | error e => exact .inr ⟨e, rfl, rfl⟩

/-! ## Reading a slot -/

theorem readInt_num (v : Int) : readInt (.num (v : Rat)) = some v := by
  simp [readInt]

theorem readNat_num (n : Nat) : readNat (.num (n : Rat)) = some n := by
  have h : readInt (.num (n : Rat)) = some (.ofNat n) := by simp [readInt]
  simp [readNat, h]

theorem readByte_num (n : Nat) (h : n < 256) : readByte (.num (n : Rat)) = some (BitVec.ofNat 8 n) := by
  simp [readByte, readNat_num, h]

@[simp] theorem readRat_num (q : Rat) : readRat (.num q) = some q := rfl

@[simp] theorem readBits_bits (s : Bits) : readBits (.bits s) = some s := rfl

theorem octets_map_toNat (d : Bytes) : octets (d.map fun b => (b.toNat : Int)) = some d := by
  induction d with
  | nil => rfl
  | cons b d ih =>
    have hb : (b.toNat : Int) < 256 := by have := b.isLt; omega
    simp [octets, hb, ih]

theorem naturals_map_ofNat (ns : List Nat) : naturals (ns.map Int.ofNat) = some ns := by
  induction ns with
  | nil => rfl
  | cons n ns ih => simp [naturals, ih]

/-- A value read as an integer is that number. -/
theorem readInt_some (v : Value) (i : Int) (h : readInt v = some i) : v = .num (i : Rat) := by
  unfold readInt at h
  cases v with
  | bits _ => simp at h
  | seq _ => simp at h
  | num q =>
    simp only at h
    split_ifs at h with hq
    cases h
    rw [← (Rat.den_eq_one_iff q |>.1 hq)]
    simp

/-- A value read as a byte is that number. -/
theorem readByte_some (v : Value) (b : Byte) (h : readByte v = some b) : v = .num ((b.toNat : Int) : Rat) := by
  unfold readByte readNat readInt at h
  cases v with
  | bits _ => simp at h
  | seq _ => simp at h
  | num q =>
    simp only at h
    by_cases hq : q.den = 1
    · rw [if_pos hq] at h
      cases hn : q.num with
      | negSucc n => rw [hn] at h; simp at h
      | ofNat n =>
        rw [hn] at h
        simp only [] at h
        split_ifs at h with hl
        cases h
        have : q = (q.num : Rat) := (Rat.den_eq_one_iff q |>.1 hq).symm
        rw [this, hn]
        simp [Nat.mod_eq_of_lt hl]
    · rw [if_neg hq] at h; simp at h

/-- Reading at a type goes on with the value read, or raises BadOperand. -/
theorem withInt_eq (v : Value) (k : Int → Reply) :
    withInt v k = ((readInt v).map k).getD (.error .badOperand) := by
  unfold withInt; cases readInt v <;> rfl

theorem withNat_eq (v : Value) (k : Nat → Reply) :
    withNat v k = ((readNat v).map k).getD (.error .badOperand) := by
  unfold withNat; cases readNat v <;> rfl

theorem withByte_eq (v : Value) (k : Byte → Reply) :
    withByte v k = ((readByte v).map k).getD (.error .badOperand) := by
  unfold withByte; cases readByte v <;> rfl

theorem withRat_eq (v : Value) (k : Rat → Reply) :
    withRat v k = ((readRat v).map k).getD (.error .badOperand) := by
  unfold withRat; cases readRat v <;> rfl

theorem withBits_eq (v : Value) (k : Bits → Reply) :
    withBits v k = ((readBits v).map k).getD (.error .badOperand) := by
  unfold withBits; cases readBits v <;> rfl

theorem withBytes_eq (v : Value) (k : Bytes → Reply) :
    withBytes v k = ((readBytes v).map k).getD (.error .badOperand) := by
  unfold withBytes; cases readBytes v <;> rfl

theorem withNats_eq (v : Value) (k : List Nat → Reply) :
    withNats v k = ((readNats v).map k).getD (.error .badOperand) := by
  unfold withNats; cases readNats v <;> rfl

/-! ## Issuing a command -/

/-- What is over the bound on a slot: a bit string of too many bits, or too long a sequence that is no list of `Nat`. -/
theorem overOnSlot_iff (m : Nat) (t : SlotType) (v : Value) :
    overOnSlot m t v = true ↔
      (∃ d, v = .bits d ∧ 8 * m < d.length) ∨ (t ≠ .natList ∧ ∃ xs, v = .seq xs ∧ m < xs.length) := by
  cases v <;> simp [overOnSlot, longerThan]

/-- When an operand makes a command be refused: there is a bound, and a slot the command reads is over it. -/
theorem operandOverMax_iff (p : Config.Params) (i : Instr) (ops : Operands) :
    operandOverMax p i ops = true ↔
      ∃ m, p.maxBufBytes = some m ∧ ∃ x ∈ signature i, overOnSlot m x.2 (slotValue ops x.1) = true := by
  unfold operandOverMax; split <;> simp_all

/-- op.L is the slot that is read as a list of `Nat`, and no other is. -/
theorem signature_natList (i : Instr) (x : Slot × SlotType) (h : x ∈ signature i) : x.2 = .natList ↔ x.1 = .l := by
  cases i <;> simp only [signature, List.mem_cons, List.not_mem_nil, or_false] at h <;>
    first
    | exact h.elim
    | (subst h; simp)
    | (rcases h with rfl | rfl <;> simp)
    | (rcases h with rfl | rfl | rfl <;> simp)

/-- An error is never over the length bound. -/
@[simp] theorem responseOverMax_err (p : Config.Params) (e : ErrorKind) : responseOverMax p (some (.err e)) = false := by
  unfold responseOverMax; split <;> rfl

/-- Without a bound no response is over it. -/
theorem responseOverMax_unbounded (p : Config.Params) (r : Option Response) (h : p.maxBufBytes = none) :
    responseOverMax p r = false := by
  simp [responseOverMax, h]

/-- A delivered outcome that is a next state comes from a next state whose result is within the bound. -/
theorem deliver_next (o : Host.Outcome State Fault Refusal) (t : State) :
    deliver o = .next t ↔
      ∃ s, o = .next s ∧ responseOverMax s.params s.response = false ∧ t = release s := by
  cases o with
  | next s =>
    cases h : responseOverMax s.params s.response
    · simp only [deliver, h, Bool.false_eq_true, if_false, Host.Outcome.next.injEq]
      constructor
      · rintro rfl; exact ⟨s, rfl, h, rfl⟩
      · rintro ⟨_, rfl, _, rfl⟩; rfl
    · simp only [deliver, h, if_true]
      constructor
      · intro hc; cases hc
      · rintro ⟨_, hs, hf, _⟩; cases hs; rw [h] at hf; cases hf
  | fault f => cases f
  | refused r => simp [deliver]

/-- Everything a step that answers a next state can be. -/
theorem step_cases (s t : State) (h : step s = .next t) :
    (s.host = [] ∧ t = s) ∨
    (∃ c rest, s.host = .reset c :: rest ∧ t = resetState rest s) ∨
    (∃ c rest r, s.host = .command c :: rest ∧ decode c.word = .error r ∧
      t = release (raise .illegalCommand (accept c rest s))) ∨
    (∃ c rest i u, s.host = .command c :: rest ∧ decode c.word = .ok i ∧
      operandOverMax s.params i c.operands = false ∧ exec i (accept c rest s) = .next u ∧
      responseOverMax u.params u.response = false ∧ t = release u) := by
  unfold step advance at h
  split at h
  · next hh => exact .inl ⟨hh, by simpa using h.symm⟩
  · next c rest hh => exact .inr (.inl ⟨c, rest, hh, by simpa using h.symm⟩)
  · next c rest hh =>
    refine .inr (.inr ?_)
    unfold runCommand at h
    split at h
    · next r hd =>
      obtain ⟨u, hu, _, rfl⟩ := (deliver_next _ _).1 h
      exact .inl ⟨c, rest, r, hh, hd, by simp at hu; rw [hu]⟩
    · next i hd =>
      split at h
      · cases h
      · next hm =>
        obtain ⟨u, hu, hr, rfl⟩ := (deliver_next _ _).1 h
        exact .inr ⟨c, rest, i, u, hh, hd, by simpa using hm, hu, hr, rfl⟩

end Sys2Proof.Laws
end

