-- ==== Sys2Proof/Laws/Commands.lean ====
section
/-! SUPPORT. Everything a command can do, said once over all commands. -/

namespace Sys2Proof.Laws

open Machine

/-- A command answers a reply and does nothing else, or it is BS.LOAD, BS.POP or ST.CLR and has its one effect. -/
theorem exec_cases (i : Instr) (s : State) :
    (i ≠ .stClr ∧ ∃ r : Reply, exec i s = answer s r) ∨
    (i = .bsLoad ∧ ∃ d, readBits s.operands.d = some d ∧ overCapacity s.params d = false ∧
      exec i s = .next (respond .unit (setBs d s))) ∨
    (∃ n, i = .bsPop n ∧ n ≤ s.bs.length ∧
      exec i s = .next (respond (.bits (s.bs.take n)) (setBs (s.bs.drop n) s))) ∨
    (i = .stClr ∧ exec i s = .next (respond .unit (setStatus 0#32 s))) := by
  cases i
  case bsLoad =>
    cases hr : readBits s.operands.d with
    | none => exact .inl ⟨by simp, .error .badOperand, by simp [exec, execBsLoad, hr, answer]⟩
    | some d =>
      cases hc : overCapacity s.params d
      · exact .inr (.inl ⟨rfl, d, rfl, hc, by simp [exec, execBsLoad, hr, hc]⟩)
      · exact .inl ⟨by simp, .error .badOperand, by simp [exec, execBsLoad, hr, hc, answer]⟩
  case bsPop n =>
    by_cases h : s.bs.length < n
    · exact .inl ⟨by simp, .error .insufficientBits, by simp [exec, execBsPop, h, answer]⟩
    · exact .inr (.inr (.inl ⟨n, rfl, not_lt.1 h, by simp [exec, execBsPop, h]⟩))
  case stClr => exact .inr (.inr (.inr ⟨rfl, rfl⟩))
  all_goals exact .inl ⟨by simp, _, rfl⟩

/-- The state an answering command ends in gives its reply away. -/
theorem reply_of_error (s t : State) (r : Reply) (e : ErrorKind) (h : answer s r = .next t)
    (hr : t.response = some (.err e)) : r = .error e := by
  cases r with
  | ok v => simp only [answer, settle_ok, Host.Outcome.next.injEq] at h; subst h; simp at hr
  | error e' =>
    simp only [answer, settle_error, Host.Outcome.next.injEq] at h; subst h
    simp only [raise_response, Option.some.injEq, Response.err.injEq] at hr; rw [hr]

end Sys2Proof.Laws
end

