-- ==== Sys2Proof/Laws/Decode.lean ====
section
/-! SUPPORT. Reading back the fields of a packed word. -/

namespace Sys2Proof.Laws

theorem packWord_toNat (opc : Nat) (f : Bool) (k w : Nat) (ho : opc < 64) (hk : k < 256) (hw : w < 65536) :
    (packWord opc f k w).toNat = opc * 67108864 + f.toNat * 33554432 + k * 65536 + w := by
  have := Bool.toNat_le f
  rw [packWord, BitVec.toNat_ofNat, Nat.mod_eq_of_lt]
  omega

theorem opcOf_packWord (opc : Nat) (f : Bool) (k w : Nat) (ho : opc < 64) (hk : k < 256) (hw : w < 65536) :
    opcOf (packWord opc f k w) = opc := by
  have := Bool.toNat_le f
  rw [opcOf, packWord_toNat opc f k w ho hk hw]; omega

theorem flagOf_packWord (opc : Nat) (f : Bool) (k w : Nat) (ho : opc < 64) (hk : k < 256) (hw : w < 65536) :
    flagOf (packWord opc f k w) = f := by
  rw [flagOf, packWord_toNat opc f k w ho hk hw]
  cases f <;> simp <;> omega

theorem zeroOf_packWord (opc : Nat) (f : Bool) (k w : Nat) (ho : opc < 64) (hk : k < 256) (hw : w < 65536) :
    zeroOf (packWord opc f k w) = false := by
  rw [zeroOf, packWord_toNat opc f k w ho hk hw]
  cases f <;> simp <;> omega

theorem tableOf_packWord (opc : Nat) (f : Bool) (k w : Nat) (ho : opc < 64) (hk : k < 256) (hw : w < 65536) :
    tableOf (packWord opc f k w) = k := by
  rw [tableOf, packWord_toNat opc f k w ho hk hw]
  cases f <;> simp <;> omega

theorem immOf_packWord (opc : Nat) (f : Bool) (k w : Nat) (ho : opc < 64) (hk : k < 256) (hw : w < 65536) :
    immOf (packWord opc f k w) = w := by
  have := Bool.toNat_le f
  rw [immOf, packWord_toNat opc f k w ho hk hw]; omega

/-- A packed word whose OPC has a row decodes by that row. -/
theorem decode_packWord (opc : Nat) (f : Bool) (k w : Nat) (row : Row) (ho : opc < 64) (hk : k < 256)
    (hw : w < 65536) (hr : rowOf opc f = some row) :
    decode (packWord opc f k w) =
      if !row.usesF && f then .error .reservedF
      else if !row.usesK && k != 0 then .error .reservedK
      else if !row.usesW && w != 0 then .error .reservedW
      else if opc == 0x22 && w / 256 != 0 then .error .reservedIndexBits
      else .ok (row.command f k w) := by
  simp [decode, zeroOf_packWord opc f k w ho hk hw, opcOf_packWord opc f k w ho hk hw,
    flagOf_packWord opc f k w ho hk hw, tableOf_packWord opc f k w ho hk hw,
    immOf_packWord opc f k w ho hk hw, hr]

/-- A word with Z = 0 is the packing of its fields. -/
theorem packWord_fields (word : CmdWord) (hz : zeroOf word = false) :
    packWord (opcOf word) (flagOf word) (tableOf word) (immOf word) = word := by
  have h := word.isLt
  unfold packWord opcOf flagOf tableOf immOf
  unfold zeroOf at hz
  apply BitVec.eq_of_toNat_eq
  simp only [decide_eq_false_iff_not] at hz
  rw [BitVec.toNat_ofNat]
  by_cases hf : word.toNat / 33554432 % 2 = 1 <;> simp [hf] <;> omega

/-- A word of a row that uses F and W. -/
theorem decode_flagImm (opc : Nat) (mk : Bool → Nat → Instr) (ho : opc < 64) (hne : opc ≠ 0x22) (c : Bool) (n : Nat) (hn : n < 65536)
    (hr : rowOf opc c = some (flagImmRow mk)) :
    decode (BitVec.ofNat 32 (opc * 67108864 + c.toNat * 2 ^ 25 + n)) = .ok (mk c n) := by
  have := decode_packWord opc c 0 n _ ho (by omega) hn hr
  simpa [flagImmRow, packWord, hne] using this

/-- A word of a row that uses W only. -/
theorem decode_imm (opc : Nat) (mk : Nat → Instr) (ho : opc < 64) (hne : opc ≠ 0x22) (n : Nat) (hn : n < 65536)
    (hr : rowOf opc false = some (immRow mk)) :
    decode (BitVec.ofNat 32 (opc * 67108864 + n)) = .ok (mk n) := by
  have := decode_packWord opc false 0 n _ ho (by omega) hn hr
  simpa [immRow, packWord, hne] using this

/-- The fields of R61 as bit slices. -/
theorem extract_opc (w : CmdWord) : (w.extractLsb' 26 6).toNat = opcOf w := by
  have := w.isLt
  simp [opcOf, Nat.shiftRight_eq_div_pow]; omega

theorem bit_z (w : CmdWord) : w.getLsbD 24 = zeroOf w := by
  simp [zeroOf, BitVec.getLsbD, Nat.testBit_eq_decide_div_mod_eq]

theorem bit_f (w : CmdWord) : w.getLsbD 25 = flagOf w := by
  simp [flagOf, BitVec.getLsbD, Nat.testBit_eq_decide_div_mod_eq]

theorem extract_k (w : CmdWord) : (w.extractLsb' 16 8 ≠ 0#8) ↔ tableOf w ≠ 0 := by
  simp [tableOf, ← BitVec.toNat_inj, Nat.shiftRight_eq_div_pow]

theorem extract_w (w : CmdWord) : (w.extractLsb' 0 16 ≠ 0#16) ↔ immOf w ≠ 0 := by
  simp [immOf, ← BitVec.toNat_inj]

theorem extract_index_high (w : CmdWord) : (w.extractLsb' 8 8 ≠ 0#8) ↔ immOf w / 256 ≠ 0 := by
  simp [immOf, ← BitVec.toNat_inj, Nat.shiftRight_eq_div_pow]; omega

end Sys2Proof.Laws
end

