-- ==== Sys2Proof/Laws/Spelling.lean ====
section
/-! SUPPORT. The conversions of 00_scope.md R11 meet the independent descriptions of Safety.lean, which determine them. -/

namespace Sys2Proof.Laws

open Machine

/-- A byte string offered on a slot is read back. -/
theorem readBytes_bytesValue (d : Bytes) : readBytes (bytesValue d) = some d := octets_map_toNat d

/-- Bit `j` of the string, counted from the front, is bit `n - 1 - j` of the number. -/
theorem natBits_get (x n j : Nat) (h : j < n) : (natBits x n)[j]? = some (x.testBit (n - 1 - j)) := by
  induction n generalizing j with
  | zero => omega
  | succ n ih =>
    cases j with
    | zero => simp [natBits]
    | succ j => simp only [natBits, List.getElem?_cons_succ]; rw [ih j (by omega)]; congr 2; omega

theorem spells_natBits (x n : Nat) (h : x < 2 ^ n) : Spells (natBits x n) x := by
  refine ⟨by simpa using h, ?_⟩
  intro j hj
  rw [natBits_length] at hj ⊢
  exact natBits_get x n j hj

theorem natBits_uint (b : Bits) : natBits (uint b) b.length = b := by
  induction b with
  | nil => rfl
  | cons b s ih =>
    have hl := uint_lt s
    have h1 : (b.toNat * 2 ^ s.length + uint s).testBit s.length = b := by
      rw [Nat.testBit_eq_decide_div_mod_eq, Nat.add_div_of_dvd_right (Dvd.intro_left _ rfl),
        Nat.div_eq_of_lt hl, Nat.mul_div_cancel _ (by positivity)]
      cases b <;> simp
    have h2 : ∀ n ≤ s.length, natBits (b.toNat * 2 ^ s.length + uint s) n = natBits (uint s) n := by
      intro n
      induction n with
      | zero => intro _; rfl
      | succ n ihn =>
        intro hn
        simp only [natBits]
        rw [ihn (by omega), Nat.mul_comm, Nat.testBit_two_pow_mul_add _ hl]
        simp [show n < s.length by omega]
    simp only [uint_cons, List.length_cons, natBits]
    rw [h1, h2 _ le_rfl, ih]

theorem spells_uint (b : Bits) : Spells b (uint b) := by
  have := spells_natBits (uint b) b.length (uint_lt b)
  rwa [natBits_uint] at this

theorem spells_bitsOf (v : Int) (n : Nat) : Spells (bitsOf v n) (v % 2 ^ n).toNat := by
  apply spells_natBits
  have h0 : (0 : Int) < 2 ^ n := by positivity
  have h1 : 0 ≤ v % 2 ^ n := Int.emod_nonneg _ h0.ne'
  have h2 : v % 2 ^ n < 2 ^ n := Int.emod_lt_of_pos _ h0
  zify; omega

theorem spells_bitsOf_range (v : Int) (n : Nat) (h0 : 0 ≤ v) (h1 : v ≤ 2 ^ n - 1) : Spells (bitsOf v n) v.toNat := by
  have := spells_bitsOf v n
  rwa [Int.emod_eq_of_lt h0 (by omega)] at this

theorem spellsInt_bitsOf (v : Int) (n : Nat) (h0 : -2 ^ (n - 1) ≤ v) (h1 : v < 2 ^ (n - 1)) :
    SpellsInt (bitsOf v n) v := by
  refine ⟨by simpa using h0, by simpa using h1, ?_⟩
  simpa using spells_bitsOf v n

theorem sint_emod (b : Bits) : sint b % 2 ^ b.length = uint b := by
  cases b with
  | nil => rfl
  | cons b s =>
    have hl := uint_lt (b :: s)
    have : sint (b :: s) = uint (b :: s) + (2 ^ (b :: s).length) * (-(b.toNat : Int)) := by
      simp only [sint]; ring
    rw [this, Int.add_mul_emod_self_left, Int.emod_eq_of_lt (by omega)]
    exact_mod_cast hl

theorem spellsInt_sint (b : Bits) (h : b ≠ []) : SpellsInt b (sint b) := by
  have h3 := spells_uint b
  refine ⟨?_, ?_, by rw [sint_emod]; simpa using h3⟩
  all_goals
    obtain ⟨c, s, rfl⟩ := List.exists_cons_of_ne_nil h
    have hl := uint_lt s
    have hl' : (uint s : Int) < 2 ^ s.length := by exact_mod_cast hl
    have h0 : (0 : Int) < 2 ^ s.length := by positivity
    simp only [sint, uint_cons, List.length_cons, Nat.add_sub_cancel, pow_succ]
    cases c <;> simp <;> omega

theorem spells_unique (b : Bits) (v w : Nat) (h : Spells b v) (h' : Spells b w) : v = w := by
  apply Nat.eq_of_testBit_eq
  intro i
  by_cases hi : i < b.length
  · have a := h.2 (b.length - 1 - i) (by omega)
    have c := h'.2 (b.length - 1 - i) (by omega)
    rw [a] at c
    simp only [Option.some.injEq] at c
    rwa [show b.length - 1 - (b.length - 1 - i) = i by omega] at c
  · rw [Nat.testBit_lt_two_pow (lt_of_lt_of_le h.1 (Nat.pow_le_pow_right (by norm_num) (by omega))),
      Nat.testBit_lt_two_pow (lt_of_lt_of_le h'.1 (Nat.pow_le_pow_right (by norm_num) (by omega)))]

theorem spellsInt_unique (b : Bits) (hb : b ≠ []) (v w : Int) (h : SpellsInt b v) (h' : SpellsInt b w) : v = w := by
  obtain ⟨a1, a2, a3⟩ := h
  obtain ⟨c1, c2, c3⟩ := h'
  have := spells_unique _ _ _ a3 c3
  have hl : 0 < b.length := List.length_pos_iff.2 hb
  have h2 : (2 : Int) ^ b.length = 2 * 2 ^ (b.length - 1) := by
    rw [← pow_succ']; congr 1; omega
  have h0 : (0 : Int) < 2 ^ (b.length - 1) := by positivity
  rw [h2] at this
  have e1 := Int.emod_nonneg v (by omega : (2 * 2 ^ (b.length - 1) : Int) ≠ 0)
  have e2 := Int.emod_nonneg w (by omega : (2 * 2 ^ (b.length - 1) : Int) ≠ 0)
  have e3 : v % (2 * 2 ^ (b.length - 1)) = w % (2 * 2 ^ (b.length - 1)) := by omega
  have e4 := Int.emod_emod_of_dvd
  have := Int.emod_eq_emod_iff_emod_sub_eq_zero.1 e3
  obtain ⟨q, hq⟩ := Int.dvd_of_emod_eq_zero this
  have : q = 0 := by
    by_contra hne
    rcases lt_or_gt_of_ne hne with h | h <;> nlinarith
  subst this; linarith

/-- The largest value of a field is all ones. -/
theorem bitsOf_ones (n : Nat) : bitsOf (2 ^ n - 1) n = List.replicate n true := by
  have h0 : (0 : Int) < 2 ^ n := by positivity
  have h : ((2 ^ n - 1 : Int) % 2 ^ n).toNat = 2 ^ n - 1 := by
    rw [Int.emod_eq_of_lt (by omega) (by omega)]
    have : ((2 ^ n : Nat) : Int) = 2 ^ n := by push_cast; rfl
    omega
  unfold bitsOf; rw [h]
  apply List.ext_getElem?
  intro j
  by_cases hj : j < n
  · rw [natBits_get _ _ _ hj, Nat.testBit_two_pow_sub_one, List.getElem?_replicate]
    simp [hj]; omega
  · rw [List.getElem?_eq_none (by simp; omega), List.getElem?_eq_none (by simp; omega)]

theorem spells_replicate (n : Nat) : Spells (List.replicate n true) (2 ^ n - 1) := by
  rw [← bitsOf_ones]
  have h0 : (0 : Int) < 2 ^ n := by positivity
  have := spells_bitsOf_range (2 ^ n - 1) n (by omega) (by omega)
  have e : (2 ^ n - 1 : Int).toNat = 2 ^ n - 1 := by
    have : ((2 ^ n : Nat) : Int) = 2 ^ n := by push_cast; rfl
    omega
  rwa [e] at this

theorem ne_nil_of_length (b : Bits) (n : Nat) (h : b.length = n) (hn : n ≠ 0) : b ≠ [] := by
  rintro rfl; simp at h; omega

/-- `rhaz` rounds half away from zero (R106). -/
theorem rhaz_roundsTo (x : Rat) : RoundsTo x (rhaz x) := by
  unfold rhaz RoundsTo
  split
  · next h =>
    have h1 : (((-x + 1/2).floor : Int) : Rat) ≤ -x + 1/2 := Int.floor_le (-x + 1/2)
    have h2 : -x + 1/2 < (((-x + 1/2).floor : Int) : Rat) + 1 := Int.lt_floor_add_one (-x + 1/2)
    generalize (-x + 1/2).floor = k at *
    push_cast
    constructor
    · rw [abs_le]; constructor <;> linarith
    · intro hh
      have hk : (0 : Rat) ≤ k := by
        have : (-1 : Rat) < k := by linarith
        have : (-1 : Int) < k := by exact_mod_cast this
        exact_mod_cast (by omega : (0 : Int) ≤ k)
      rw [abs_of_neg h, abs_neg, abs_of_nonneg hk]
      rcases abs_eq (by norm_num : (0 : Rat) ≤ 1/2) |>.1 hh with h3 | h3 <;> linarith
  · next h =>
    have h1 : (((x + 1/2).floor : Int) : Rat) ≤ x + 1/2 := Int.floor_le (x + 1/2)
    have h2 : x + 1/2 < (((x + 1/2).floor : Int) : Rat) + 1 := Int.lt_floor_add_one (x + 1/2)
    generalize (x + 1/2).floor = k at *
    constructor
    · rw [abs_le]; constructor <;> linarith
    · intro hh
      have hk : (0 : Rat) ≤ k := by
        have : (-1 : Rat) < k := by linarith
        have : (-1 : Int) < k := by exact_mod_cast this
        exact_mod_cast (by omega : (0 : Int) ≤ k)
      rw [abs_of_nonneg (by linarith : 0 ≤ x), abs_of_nonneg hk]
      rcases abs_eq (by norm_num : (0 : Rat) ≤ 1/2) |>.1 hh with h3 | h3 <;> linarith

theorem roundsTo_unique (x : Rat) (r r' : Int) (h : RoundsTo x r) (h' : RoundsTo x r') : r = r' := by
  obtain ⟨h1, h2⟩ := h
  obtain ⟨h3, h4⟩ := h'
  rw [abs_le] at h1 h3
  have a1 : (r : Rat) - r' ≤ 1 := by linarith
  have a2 : (r' : Rat) - r ≤ 1 := by linarith
  have a1 : r - r' ≤ 1 := by exact_mod_cast a1
  have a2 : r' - r ≤ 1 := by exact_mod_cast a2
  have key : ∀ a b : Int, RoundsTo x a → RoundsTo x b → a = b + 1 → False := by
    intro a b ⟨ha, ha'⟩ ⟨hb, hb'⟩ hab
    have hab' : (a : Rat) = b + 1 := by exact_mod_cast hab
    rw [abs_le] at ha hb
    have e1 : (a : Rat) - x = 1 / 2 := by linarith
    have e2 : (b : Rat) - x = -(1 / 2) := by linarith
    have c1 := ha' (by rw [e1]; norm_num)
    have c2 := hb' (by rw [e2]; norm_num)
    by_cases hb0 : 0 ≤ b
    · have : (0 : Rat) ≤ b := by exact_mod_cast hb0
      rw [abs_of_nonneg this, abs_of_nonneg (by linarith)] at c2; linarith
    · have : a ≤ 0 := by omega
      have : (a : Rat) ≤ 0 := by exact_mod_cast this
      rw [abs_of_nonpos this, abs_of_nonpos (by linarith)] at c1; linarith
  rcases lt_trichotomy r r' with h | h | h
  · exact (key r' r ⟨by rw [abs_le]; exact h3, h4⟩ ⟨by rw [abs_le]; exact h1, h2⟩ (by omega)).elim
  · exact h
  · exact (key r r' ⟨by rw [abs_le]; exact h1, h2⟩ ⟨by rw [abs_le]; exact h3, h4⟩ (by omega)).elim

theorem bytesToBits_spells (t : Bytes) : SpellsBytes (bytesToBits t) t := by
  refine ⟨bytesToBits_length t, ?_⟩
  induction t with
  | nil => intro k hk; simp at hk
  | cons b t ih =>
    intro k hk j hj
    cases k with
    | zero =>
      simp only [bytesToBits, Nat.mul_zero, Nat.zero_add, List.getD_cons_zero]
      rw [List.getElem?_append_left (by simp; omega)]
      rw [byteBits, natBits_get _ _ _ hj]
      rfl
    | succ k =>
      simp only [bytesToBits, List.getD_cons_succ]
      rw [List.getElem?_append_right (by simp; omega)]
      have : 8 * (k + 1) + j - (byteBits b).length = 8 * k + j := by simp; omega
      rw [this]
      exact ih k (by simpa using hk) j hj

theorem spellsBytes_unique (b : Bits) (t : Bytes) (h : SpellsBytes b t) : b = bytesToBits t := by
  have h2 := bytesToBits_spells t
  apply List.ext_getElem?
  intro i
  by_cases hi : i < 8 * t.length
  · have := h.2 (i/8) (by omega) (i%8) (by omega)
    have h3 := h2.2 (i/8) (by omega) (i%8) (by omega)
    rw [Nat.div_add_mod] at this h3
    rw [this, h3]
  · rw [List.getElem?_eq_none (by rw [h.1]; omega), List.getElem?_eq_none (by rw [h2.1]; omega)]

theorem bytesToBits_bitsToBytes (n : Nat) : ∀ (b : Bits), b.length = 8 * n → bytesToBits (bitsToBytes b) = b ∧ (bitsToBytes b).length = n := by
  induction n with
  | zero => intro b h; simp at h; subst h; exact ⟨rfl, rfl⟩
  | succ n ih =>
    intro b h
    match b, h with
    | b7 :: b6 :: b5 :: b4 :: b3 :: b2 :: b1 :: b0 :: s, h =>
      have hs : s.length = 8 * n := by simp at h; omega
      obtain ⟨h1, h2⟩ := ih s hs
      constructor
      · simp only [bitsToBytes, bytesToBits, h1]
        have : byteBits (BitVec.ofNat 8 (uint [b7, b6, b5, b4, b3, b2, b1, b0])) = [b7, b6, b5, b4, b3, b2, b1, b0] := by
          clear h; revert b7 b6 b5 b4 b3 b2 b1 b0; decide
        rw [this]; rfl
      · simp [bitsToBytes, h2]
    | [], h => simp at h
    | [_], h => simp at h; omega
    | [_,_], h => simp at h; omega
    | [_,_,_], h => simp at h; omega
    | [_,_,_,_], h => simp at h; omega
    | [_,_,_,_,_], h => simp at h; omega
    | [_,_,_,_,_,_], h => simp at h; omega
    | [_,_,_,_,_,_,_], h => simp at h; omega

theorem bitsToBytes_bytesToBits (t : Bytes) : bitsToBytes (bytesToBits t) = t := by
  induction t with
  | nil => rfl
  | cons b t ih =>
    have : ∀ (b : Byte) (s : Bits), bitsToBytes (byteBits b ++ s) = b :: bitsToBytes s := by
      intro b s
      simp only [byteBits, natBits, List.cons_append, List.nil_append, bitsToBytes, List.cons.injEq, and_true]
      revert b; decide
    simp [bytesToBits, this, ih]

theorem reversed_rev8 (b : Byte) : Reversed b (rev8 b) := fun j h => rev8_bit b j h

theorem eq_rev8 (b r : Byte) (h : Reversed b r) : r = rev8 b := by
  apply BitVec.eq_of_getLsbD_eq
  intro i hi
  rw [h i hi, rev8_bit b i hi]

theorem revBytes_reversed (d : Bytes) : List.Forall₂ Reversed d (revBytes d) := by
  induction d with
  | nil => exact .nil
  | cons b d ih => exact .cons (reversed_rev8 b) ih

theorem eq_revBytes (d r : Bytes) (h : List.Forall₂ Reversed d r) : r = revBytes d := by
  induction h with
  | nil => rfl
  | cons hb _ ih => rw [eq_rev8 _ _ hb, ih]; rfl

theorem revNat_lt (v n : Nat) : revNat v n < 2 ^ (8 * n) := by
  induction n with
  | zero => simp [revNat]
  | succ n ih =>
    have := (rev8 (byteAt v n)).isLt
    have h : 2 ^ (8 * (n + 1)) = 256 * 2 ^ (8 * n) := by rw [show 8 * (n+1) = 8 * n + 8 by ring, pow_add]; ring
    rw [revNat, h]
    nlinarith [Nat.two_pow_pos (8 * n)]

theorem revNat_bit (v n j k : Nat) (hj : j < n) (hk : k < 8) :
    (revNat v n).testBit (8 * j + k) = v.testBit (8 * j + (7 - k)) := by
  induction n with
  | zero => omega
  | succ n ih =>
    have hl := revNat_lt v n
    rw [revNat, Nat.add_comm, Nat.mul_comm _ (2 ^ _), Nat.testBit_two_pow_mul_add _ hl]
    by_cases h : j < n
    · rw [if_pos (by omega), ih h]
    · have : j = n := by omega
      subst this
      rw [if_neg (by omega)]
      have h1 : 8 * j + k - 8 * j = k := by omega
      rw [h1]
      have := rev8_bit (byteAt v j) k hk
      rw [BitVec.getLsbD] at this
      rw [this]
      simp [byteAt, BitVec.getLsbD_ofNat, Nat.testBit_div_two_pow]
      rw [show 7 - k + 8 * j = 8 * j + (7 - k) by omega, show decide (7 - k < 8) = true by simp; omega]; simp

end Sys2Proof.Laws
end

