-- ==== Sys2Proof/Laws/FieldCodec.lean ====
section
/-! SUPPORT. The integer steps of the SER commands, and membership in an enumeration table. -/

namespace Sys2Proof.Laws

open Machine

/-- A command whose reply is the unsigned step puts an unsigned field (R102). -/
theorem putsUnsigned_of_exec (i : Instr) (s : State) (n : Nat) (c : Bool) (r : Int)
    (h : exec i s = answer s (putUnsigned n c r)) : PutsUnsigned i s n c r := by
  have h0 : (0 : Int) < 2 ^ n := by positivity
  refine ⟨?_, ?_, ?_, ?_⟩
  · intro hr; simp [Raises, h, putUnsigned, hr, answer, raise, errorStatus]
  · intro h1 h2
    refine ⟨bitsOf r n, bitsOf_length _ _, spells_bitsOf_range r n h1 h2, ?_⟩
    simp [Answers, h, putUnsigned, not_lt.2 h1, not_lt.2 h2, answer, respond]
  · intro h1 hc
    rw [← bitsOf_ones]
    have : ¬ r < 0 := by omega
    simp [Answers, h, putUnsigned, this, h1, hc, answer, respond]
  · intro h1 hc
    have : ¬ r < 0 := by omega
    simp [Raises, h, putUnsigned, this, h1, hc, answer, raise, errorStatus]

/-- A command whose reply is the signed step puts a signed field (R104). -/
theorem putsSigned_of_exec (i : Instr) (s : State) (n : Nat) (c : Bool) (r : Int)
    (h : exec i s = answer s (putSigned n c r)) : PutsSigned i s n c r := by
  have h0 : (0 : Int) < 2 ^ (n - 1) := by positivity
  refine ⟨?_, ?_, ?_, ?_⟩
  · intro h1 h2
    refine ⟨bitsOf r n, bitsOf_length _ _, spellsInt_bitsOf r n h1 (by omega), ?_⟩
    simp [Answers, h, putSigned, not_lt.2 h1, not_lt.2 h2, answer, respond]
  · intro h1 hc
    refine ⟨bitsOf _ n, bitsOf_length _ _, spellsInt_bitsOf _ n le_rfl (by omega), ?_⟩
    simp [Answers, h, putSigned, h1, hc, answer, respond]
  · intro h1 hc
    refine ⟨bitsOf _ n, bitsOf_length _ _, spellsInt_bitsOf _ n (by omega) (by omega), ?_⟩
    have : ¬ r < -2 ^ (n - 1) := by omega
    simp [Answers, h, putSigned, this, h1, hc, answer, respond]
  · intro h1 hc
    by_cases h2 : r < -2 ^ (n - 1)
    · simp [Raises, h, putSigned, h2, hc, answer, raise, errorStatus]
    · simp [Raises, h, putSigned, h2, h1.resolve_left h2, hc, answer, raise, errorStatus]

theorem isMember_iff (p : Config.Params) (k : Nat) (v : Int) :
    isMember p k v = true ↔ (0 ≤ v ∧ v.toNat ∈ p.enumTables.getD k []) := by
  cases v <;> simp [isMember, enumTable, Int.negSucc_not_nonneg]

end Sys2Proof.Laws
end

