-- ==== Sys2Proof/Laws/PerInstr.lean ====
section
/-! SUPPORT. Facts about every command as syntax, one lemma per constructor. -/

namespace Sys2Proof.Laws.EncodedWord

/-- The word of a well-formed command has Z = 0 and an OPC that R64 assigns (30_encoding.md R62, R64, R65). -/
def Statement (i : Instr) : Prop :=
  WellFormed i = true → zeroOf (encode i) = false ∧ (rowOf (opcOf (encode i)) (flagOf (encode i))).isSome = true

/-- A packed word with the fields in their ranges has Z = 0, and the row of its OPC and F. -/
theorem packed (opc : Nat) (f : Bool) (k w : Nat) (ho : opc < 64) (hk : k < 256) (hw : w < 65536)
    (hr : (rowOf opc f).isSome = true) :
    zeroOf (packWord opc f k w) = false ∧
      (rowOf (opcOf (packWord opc f k w)) (flagOf (packWord opc f k w))).isSome = true := by
  rw [opcOf_packWord opc f k w ho hk hw, flagOf_packWord opc f k w ho hk hw]
  exact ⟨zeroOf_packWord opc f k w ho hk hw, hr⟩

theorem bsLoad : Statement .bsLoad := fun _ =>
  packed 0x01 false 0 0 (by decide) (by decide) (by decide) rfl

theorem bsPop (n : Nat) : Statement (.bsPop n) := fun h =>
  packed 0x02 false 0 n (by decide) (by decide) (of_decide_eq_true h) rfl

theorem bsLen : Statement .bsLen := fun _ =>
  packed 0x03 false 0 0 (by decide) (by decide) (by decide) rfl

theorem bsEnd : Statement .bsEnd := fun _ =>
  packed 0x04 false 0 0 (by decide) (by decide) (by decide) rfl

theorem revB : Statement .revB := fun _ =>
  packed 0x08 false 0 0 (by decide) (by decide) (by decide) rfl

theorem revBs : Statement .revBs := fun _ =>
  packed 0x09 false 0 0 (by decide) (by decide) (by decide) rfl

theorem revI (nbytes : Nat) : Statement (.revI nbytes) := fun h =>
  packed 0x0A false 0 nbytes (by decide) (by decide) (of_decide_eq_true h) rfl

theorem serU (constrain : Bool) (bits : Nat) : Statement (.serU constrain bits) := fun h =>
  packed 0x10 constrain 0 bits (by decide) (by decide) (of_decide_eq_true h) rfl

theorem desU : Statement .desU := fun _ =>
  packed 0x11 false 0 0 (by decide) (by decide) (by decide) rfl

theorem serS (constrain : Bool) (bits : Nat) : Statement (.serS constrain bits) := fun h =>
  packed 0x12 constrain 0 bits (by decide) (by decide) (of_decide_eq_true h) rfl

theorem desS : Statement .desS := fun _ =>
  packed 0x13 false 0 0 (by decide) (by decide) (by decide) rfl

theorem serRu (constrain : Bool) (bits : Nat) : Statement (.serRu constrain bits) := fun h =>
  packed 0x14 constrain 0 bits (by decide) (by decide) (of_decide_eq_true h) rfl

theorem desRu : Statement .desRu := fun _ =>
  packed 0x15 false 0 0 (by decide) (by decide) (by decide) rfl

theorem serRs (constrain : Bool) (bits : Nat) : Statement (.serRs constrain bits) := fun h =>
  packed 0x16 constrain 0 bits (by decide) (by decide) (of_decide_eq_true h) rfl

theorem desRs : Statement .desRs := fun _ =>
  packed 0x17 false 0 0 (by decide) (by decide) (by decide) rfl

theorem serRo (constrain : Bool) (bits : Nat) : Statement (.serRo constrain bits) := fun h =>
  packed 0x18 constrain 0 bits (by decide) (by decide) (of_decide_eq_true h) rfl

theorem desRo : Statement .desRo := fun _ =>
  packed 0x19 false 0 0 (by decide) (by decide) (by decide) rfl

theorem serBool : Statement .serBool := fun _ =>
  packed 0x1A false 0 0 (by decide) (by decide) (by decide) rfl

theorem desBool : Statement .desBool := fun _ =>
  packed 0x1B false 0 0 (by decide) (by decide) (by decide) rfl

theorem serTxt (bits : Nat) : Statement (.serTxt bits) := fun h =>
  packed 0x1C false 0 bits (by decide) (by decide) (of_decide_eq_true h) rfl

theorem desTxt : Statement .desTxt := fun _ =>
  packed 0x1D false 0 0 (by decide) (by decide) (by decide) rfl

theorem serEnum (k : Nat) (bits : Nat) : Statement (.serEnum k bits) := fun h => by
  simp only [WellFormed, fitsW, fitsByte, Bool.and_eq_true, decide_eq_true_eq] at h
  exact packed 0x1E false k bits (by decide) h.1 h.2 rfl

theorem desEnum (k : Nat) : Statement (.desEnum k) := fun h =>
  packed 0x1F false k 0 (by decide) (of_decide_eq_true h) (by decide) rfl

theorem esc : Statement .esc := fun _ =>
  packed 0x20 false 0 0 (by decide) (by decide) (by decide) rfl

theorem unesc : Statement .unesc := fun _ =>
  packed 0x21 false 0 0 (by decide) (by decide) (by decide) rfl

theorem crcTab (i : Nat) : Statement (.crcTab i) := fun h =>
  packed 0x22 false 0 i (by decide) (by decide) (lt_trans (of_decide_eq_true h) (by decide)) rfl

theorem crcGen : Statement .crcGen := fun _ =>
  packed 0x23 false 0 0 (by decide) (by decide) (by decide) rfl

theorem crcChk : Statement .crcChk := fun _ =>
  packed 0x24 false 0 0 (by decide) (by decide) (by decide) rfl

theorem crcChks : Statement .crcChks := fun _ =>
  packed 0x24 true 0 0 (by decide) (by decide) (by decide) rfl

theorem frmBuild (invert : Bool) : Statement (.frmBuild invert) := fun _ =>
  packed 0x28 invert 0 0 (by decide) (by decide) (by decide) rfl

theorem frmDecon (invert : Bool) (idlen : Nat) : Statement (.frmDecon invert idlen) := fun h =>
  packed 0x29 invert 0 idlen (by decide) (by decide) (of_decide_eq_true h) rfl

theorem frmSplit : Statement .frmSplit := fun _ =>
  packed 0x2A false 0 0 (by decide) (by decide) (by decide) rfl

theorem stRd : Statement .stRd := fun _ =>
  packed 0x3E false 0 0 (by decide) (by decide) (by decide) rfl

theorem stClr : Statement .stClr := fun _ =>
  packed 0x3F false 0 0 (by decide) (by decide) (by decide) rfl

end Sys2Proof.Laws.EncodedWord
end

