-- ==== Sys2Proof/Laws/Transport.lean ====
section
/-! SUPPORT. Stuffing, the CRC, the flags and the segments (42_frame_transport.md). -/

namespace Sys2Proof.Laws

open Machine

theorem escBytes_eq (d : Bytes) : escBytes d = d.flatMap stuffed := by
  induction d with
  | nil => rfl
  | cons b d ih =>
    simp only [escBytes, List.flatMap_cons, stuffed, escByte, flagByte, xorMask]
    split <;> rename_i h <;> simp [ih, h]

theorem flag_not_mem_stuffed (d : Bytes) : 0x7E#8 ∉ d.flatMap stuffed := by
  intro h
  obtain ⟨b, _, h⟩ := List.mem_flatMap.1 h
  revert h; revert b; simp only [stuffed]; 
  intro b _
  split
  · rename_i hb; rcases hb with rfl | rfl <;> decide
  · rename_i hb; push Not at hb; simp [hb.2.symm]

/-- The scan of UNESC over whole units. -/
theorem unescFrom_wire (units : List (Bool × Byte)) (h : UnitsOk units) (rest : Bytes) :
    unescFrom false (wire units ++ rest) = (unescFrom false rest).map (content units ++ ·) := by
  induction units with
  | nil => simp [wire, content]
  | cons t units ih =>
    have h' : UnitsOk units := fun t ht => h t (List.mem_cons_of_mem _ ht)
    have ht := h t (by simp)
    obtain ⟨e, b⟩ := t
    simp only [wire, List.flatMap_cons, content, List.map_cons] at ih ⊢
    cases e
    · simp at ht
      simp [unescFrom, escByte, ht, ih h', Function.comp_def]
    · simp [unescFrom, escByte, xorMask, ih h', Function.comp_def]

theorem exists_units : ∀ (n : Nat) (d : Bytes), d.length ≤ n → ∃ units, UnitsOk units ∧ (d = wire units ∨ d = wire units ++ [0x7D#8]) := by
  intro n
  induction n with
  | zero => intro d h; obtain rfl := List.length_eq_zero_iff.1 (Nat.le_zero.1 h); exact ⟨[], by simp [UnitsOk], by simp [wire]⟩
  | succ n ih =>
    intro d h
    match d with
    | [] => exact ⟨[], by simp [UnitsOk], by simp [wire]⟩
    | b :: d =>
      by_cases hb : b = 0x7D#8
      · match d with
        | [] => exact ⟨[], by simp [UnitsOk], by simp [wire, hb]⟩
        | c :: d =>
          obtain ⟨u, hu, he⟩ := ih d (by simp at h; omega)
          refine ⟨(true, c) :: u, ?_, ?_⟩
          · intro t ht; simp at ht; rcases ht with rfl | ht
            · simp
            · exact hu t ht
          · rcases he with he | he <;> simp [wire, hb] at he ⊢ <;> [left; right] <;> exact he
      · obtain ⟨u, hu, he⟩ := ih d (by simp at h; omega)
        refine ⟨(false, b) :: u, ?_, ?_⟩
        · intro t ht; simp at ht; rcases ht with rfl | ht
          · simpa using hb
          · exact hu t ht
        · rcases he with he | he <;> simp [wire] at he ⊢ <;> [left; right] <;> exact he

/-- The units of the result of ESC. -/
def unitsOf (d : Bytes) : List (Bool × Byte) := d.map fun b => if b = 0x7D#8 ∨ b = 0x7E#8 then (true, b ^^^ 0x20#8) else (false, b)

theorem unitsOf_unitsOk (d : Bytes) : UnitsOk (unitsOf d) := by
  intro t ht
  obtain ⟨b, _, rfl⟩ := List.mem_map.1 ht
  split
  · simp
  · rename_i h; push Not at h; simp [h.1]

theorem unitsOf_wire (d : Bytes) : wire (unitsOf d) = d.flatMap stuffed := by
  induction d with
  | nil => rfl
  | cons b d ih =>
    simp only [unitsOf, wire, List.map_cons, List.flatMap_cons] at ih ⊢
    rw [ih]; congr 1; unfold stuffed; split <;> simp

theorem unitsOf_content (d : Bytes) : content (unitsOf d) = d := by
  induction d with
  | nil => rfl
  | cons b d ih =>
    simp only [unitsOf, content, List.map_cons] at ih ⊢
    rw [ih]; congr 1; split <;> simp

theorem unescBytes_escBytes (d : Bytes) : unescBytes (escBytes d) = some d := by
  have := unescFrom_wire (unitsOf d) (unitsOf_unitsOk d) []
  simp [unescFrom, unitsOf_content, unitsOf_wire] at this
  rw [escBytes_eq, unescBytes, this]

theorem escape_followed : ∀ (d : Bytes) (j : Nat), (d.flatMap stuffed)[j]? = some 0x7D#8 →
    (d.flatMap stuffed)[j + 1]? = some 0x5D#8 ∨ (d.flatMap stuffed)[j + 1]? = some 0x5E#8 := by
  intro d
  induction d with
  | nil => simp
  | cons b d ih =>
    intro j
    rw [List.flatMap_cons]
    generalize d.flatMap stuffed = r at ih
    unfold stuffed
    split
    · rename_i hb
      match j with
      | 0 => intro _; rcases hb with rfl | rfl <;> simp
      | 1 => rcases hb with rfl | rfl <;> simp
      | j + 2 => simpa using ih j
    · rename_i hb; push Not at hb
      match j with
      | 0 => simp [hb.1]
      | j + 1 => simpa using ih j

theorem exists_escBytes : ∀ (n : Nat) (o : Bytes), o.length ≤ n → 0x7E#8 ∉ o →
    (∀ j, o[j]? = some 0x7D#8 → o[j + 1]? = some 0x5D#8 ∨ o[j + 1]? = some 0x5E#8) → ∃ d, escBytes d = o := by
  intro n
  induction n with
  | zero => intro o h _ _; obtain rfl := List.length_eq_zero_iff.1 (Nat.le_zero.1 h); exact ⟨[], rfl⟩
  | succ n ih =>
    intro o h hf hj
    match o with
    | [] => exact ⟨[], rfl⟩
    | b :: o =>
      simp at hf h
      by_cases hb : b = 0x7D#8
      · match o with
        | [] => have := hj 0 (by simp [hb]); simp at this
        | c :: o =>
          simp at hf h
          obtain ⟨d, hd⟩ := ih o (by omega) hf.2.2 (fun j hjj => by simpa using hj (j+2) (by simpa using hjj))
          have := hj 0 (by simp [hb])
          simp at this
          rcases this with rfl | rfl
          · exact ⟨0x7D#8 :: d, by simp [escBytes, escByte, xorMask, hd, hb]⟩
          · exact ⟨0x7E#8 :: d, by simp [escBytes, escByte, flagByte, xorMask, hd, hb]⟩
      · obtain ⟨d, hd⟩ := ih o (by omega) hf.2 (fun j hjj => by simpa using hj (j+1) (by simpa using hjj))
        exact ⟨b :: d, by simp [escBytes, escByte, flagByte, hb, Ne.symm hf.1, hd]⟩

theorem low_byte (c : BitVec 16) : c.setWidth 8 = BitVec.ofNat 8 (c.toNat % 256) := by
  apply BitVec.eq_of_toNat_eq; simp

theorem high_byte (c : BitVec 16) : (c >>> 8).setWidth 8 = BitVec.ofNat 8 (c.toNat / 256) := by
  apply BitVec.eq_of_toNat_eq; simp [Nat.shiftRight_eq_div_pow]

/-- The table step is linear. -/
theorem crcShift_xor (x y : BitVec 16) : crcShift (x ^^^ y) = crcShift x ^^^ crcShift y := by
  unfold crcShift
  have : (x ^^^ y).msb = (x.msb ^^ y.msb) := by simp
  rw [this]
  have e : ∀ a b p : BitVec 16, a ^^^ p ^^^ (b ^^^ p) = a ^^^ b := fun a b p => by
    rw [BitVec.xor_comm b p, ← BitVec.xor_assoc, BitVec.xor_assoc a p p]; simp
  cases x.msb <;> cases y.msb <;> simp only [BitVec.shiftLeft_xor_distrib, Bool.xor_true, Bool.xor_false, Bool.not_true, Bool.not_false, if_true, Bool.false_eq_true, if_false, e] <;> ac_rfl

theorem serialShift_eq (c : BitVec 16) (b : Bool) : serialShift c b = crcShift c ^^^ (if b then 1#16 else 0#16) := rfl

theorem crcShift8_xor (x y : BitVec 16) : crcShift8 (x ^^^ y) = crcShift8 x ^^^ crcShift8 y := by
  simp only [crcShift8, crcShift_xor]

/-- Eight shifts move a low byte up without feedback. -/
theorem crcShift8_low : ∀ b : Byte, crcShift8 (b.setWidth 16) = b.setWidth 16 <<< 8 := by decide +kernel

theorem serial_byte_zero : ∀ b : Byte, [b.getLsbD 7, b.getLsbD 6, b.getLsbD 5, b.getLsbD 4, b.getLsbD 3, b.getLsbD 2, b.getLsbD 1,
    b.getLsbD 0].foldl serialShift 0#16 = b.setWidth 16 := by decide +kernel

theorem serial_byte (c : BitVec 16) (b7 b6 b5 b4 b3 b2 b1 b0 : Bool) :
    [b7,b6,b5,b4,b3,b2,b1,b0].foldl serialShift c = crcShift8 c ^^^ [b7,b6,b5,b4,b3,b2,b1,b0].foldl serialShift 0#16 := by
  have h0 : crcShift 0#16 = 0#16 := by decide
  simp only [List.foldl, serialShift_eq, crcShift_xor, crcShift8, h0]
  simp only [BitVec.zero_xor]
  ac_rfl

theorem high_low_xor (c : BitVec 16) : c = (((c >>> 8).setWidth 8).setWidth 16 <<< 8) ^^^ ((c.setWidth 8).setWidth 16) := by
  ext i hi
  simp
  interval_cases i <;> simp

/-- Eight bits into the register are one table-driven update. -/
theorem serial_byte_eq_crcUpdate (c : BitVec 16) (b : Byte) : [b.getLsbD 7, b.getLsbD 6, b.getLsbD 5, b.getLsbD 4, b.getLsbD 3, b.getLsbD 2, b.getLsbD 1,
    b.getLsbD 0].foldl serialShift c = crcUpdate c b := by
  rw [serial_byte, serial_byte_zero, crcUpdate, crcTable]
  conv_lhs => rw [high_low_xor c]
  rw [crcShift8_xor, crcShift8_low]
  congr 2
  ext i hi
  simp
  interval_cases i <;> simp

theorem serialCrc_eq_crc16 (d : Bytes) : serialCrc d = crc16 d := by
  unfold serialCrc crc16
  rw [List.foldl_flatMap]
  congr 1
  funext c b
  exact serial_byte_eq_crcUpdate c b

theorem invertedBy_iff (inv : Bool) (u v : Bytes) : InvertedBy inv u v ↔ v = invertIf inv u := by
  cases inv
  · simp [InvertedBy, invertIf]
  · simp only [InvertedBy, invertIf, if_true]
    exact ⟨eq_revBytes u v, by rintro rfl; exact revBytes_reversed u⟩

theorem invertIf_twice (inv : Bool) (d : Bytes) : invertIf inv (invertIf inv d) = d := by
  cases inv
  · rfl
  · simp [invertIf, revBytes, Function.comp_def]

theorem stripFlags_flagged (m : Bytes) : stripFlags (0x7E#8 :: m ++ [0x7E#8]) = some m := by
  simp [stripFlags, flagByte]
  simp [List.getLast?_append, List.getLast?_cons]

theorem stripFlags_unflagged (d : Bytes) (h : ¬ ∃ middle, d = 0x7E#8 :: middle ++ [0x7E#8]) : stripFlags d = none := by
  unfold stripFlags
  split
  · rfl
  · rename_i hc
    push Not at hc
    exfalso; apply h
    obtain ⟨h1, h2, h3⟩ := hc
    match d with
    | [] => simp at h1
    | b :: d =>
      simp [flagByte] at h2; subst h2
      have hne : d ≠ [] := by rintro rfl; simp at h1
      refine ⟨d.dropLast, ?_⟩
      have hl : d.getLast hne = 0x7E#8 := by
        rw [List.getLast?_cons, List.getLast?_eq_some_getLast hne] at h3
        simpa [flagByte] using h3
      rw [List.cons_append, ← hl, List.dropLast_append_getLast]

theorem ids_of_bytes (ids : List Nat) (h : ∀ id ∈ ids, id ≤ 255) : (ids.map (BitVec.ofNat 8)).map BitVec.toNat = ids := by
  rw [List.map_map]
  conv_rhs => rw [← List.map_id ids]
  apply List.map_congr_left
  intro x hx
  have := h x hx
  simp; omega

/-- The scan of FRM.SPLIT up to the next flag. -/
theorem splitFrom_segment (seg acc rest : Bytes) (h : 0x7E#8 ∉ seg) :
    splitFrom acc (seg ++ 0x7E#8 :: rest) = (if acc ++ seg = [] then [] else [0x7E#8 :: (acc ++ seg) ++ [0x7E#8]]) ++ splitFrom [] rest := by
  induction seg generalizing acc with
  | nil => simp only [List.nil_append, splitFrom, flagByte, List.append_nil, if_true]; by_cases h : acc = [] <;> simp [h]
  | cons b seg ih =>
    simp at h
    have hb : b ≠ flagByte := fun e => h.1 (by rw [e]; rfl)
    simp only [List.cons_append, splitFrom, hb, if_false]
    rw [ih _ h.2]; simp

theorem splitFrom_segments (segs : List Bytes) (h : ∀ seg ∈ segs, 0x7E#8 ∉ seg) :
    splitFrom [] (segs.flatMap (· ++ [0x7E#8])) = (segs.filter (fun seg => !seg.isEmpty)).map fun seg => 0x7E#8 :: seg ++ [0x7E#8] := by
  induction segs with
  | nil => rfl
  | cons a segs ih =>
    have := ih (fun s hs => h s (by simp [hs]))
    rw [List.flatMap_cons, List.append_assoc, List.singleton_append, splitFrom_segment a [] _ (h a (by simp)), this]
    cases a <;> simp

theorem exists_segments : ∀ (d : Bytes), d.getLast? = some 0x7E#8 → ∃ segs : List Bytes, (∀ seg ∈ segs, 0x7E#8 ∉ seg) ∧ d = segs.flatMap (· ++ [0x7E#8]) := by
  intro d
  induction d with
  | nil => simp
  | cons b d ih =>
    intro h
    by_cases hd : d = []
    · subst hd; simp at h; subst h; exact ⟨[[]], by simp, by simp⟩
    · have h' : d.getLast? = some 0x7E#8 := by
        rwa [List.getLast?_cons, List.getLast?_eq_some_getLast hd, Option.getD_some, ← List.getLast?_eq_some_getLast hd] at h
      obtain ⟨segs, h1, h2⟩ := ih h'
      by_cases hb : b = 0x7E#8
      · refine ⟨[] :: segs, by simpa using h1, by simp [hb, h2]⟩
      · match segs with
        | [] => simp at h2; exact absurd h2 hd
        | a :: segs =>
          refine ⟨(b :: a) :: segs, ?_, by simp [h2]⟩
          intro s hs; simp at hs h1
          rcases hs with rfl | hs
          · simp [h1.1, Ne.symm hb]
          · exact h1.2 s hs

end Sys2Proof.Laws
end

