-- ==== Sys2Proof/Tests/Slice0.lean ====
section
/-! SUPPORT. The model's own tests: well-formedness, decoding words written out from 30_encoding.md R61 and R62 (OPC, F, Z, K, W),
the spec's vectors (95_test_vectors.md), and for every statement with hypotheses a state and operands that meet them. -/

namespace Sys2Proof.Tests

set_option Elab.async false

open Machine

/-! ## Well-formedness: the boundary term is accepted, the next one refused -/

theorem test_wellFormed_bsPop : WellFormed (.bsPop 65535) = true ∧ WellFormed (.bsPop 65536) = false := by decide

theorem test_wellFormed_revI : WellFormed (.revI 65535) = true ∧ WellFormed (.revI 65536) = false := by decide

theorem test_wellFormed_serU : WellFormed (.serU true 65535) = true ∧ WellFormed (.serU true 65536) = false := by decide

theorem test_wellFormed_serS : WellFormed (.serS false 65535) = true ∧ WellFormed (.serS false 65536) = false := by decide

theorem test_wellFormed_serRu : WellFormed (.serRu true 65535) = true ∧ WellFormed (.serRu true 65536) = false := by decide

theorem test_wellFormed_serRs : WellFormed (.serRs true 65535) = true ∧ WellFormed (.serRs true 65536) = false := by decide

theorem test_wellFormed_serRo : WellFormed (.serRo true 65535) = true ∧ WellFormed (.serRo true 65536) = false := by decide

theorem test_wellFormed_serTxt : WellFormed (.serTxt 65535) = true ∧ WellFormed (.serTxt 65536) = false := by decide

theorem test_wellFormed_serEnum_bits : WellFormed (.serEnum 255 65535) = true ∧ WellFormed (.serEnum 255 65536) = false := by decide

theorem test_wellFormed_serEnum_k : WellFormed (.serEnum 255 0) = true ∧ WellFormed (.serEnum 256 0) = false := by decide

theorem test_wellFormed_desEnum : WellFormed (.desEnum 255) = true ∧ WellFormed (.desEnum 256) = false := by decide

theorem test_wellFormed_crcTab : WellFormed (.crcTab 255) = true ∧ WellFormed (.crcTab 256) = false := by decide

theorem test_wellFormed_frmDecon : WellFormed (.frmDecon true 65535) = true ∧ WellFormed (.frmDecon true 65536) = false := by decide

/-! ## Decoding -/

theorem test_decode_bitSequence :
    decode 0b000001_0_0_00000000_0000000000000000#32 = .ok .bsLoad ∧
    decode 0b000010_0_0_00000000_0000000000001000#32 = .ok (.bsPop 8) ∧
    decode 0b000011_0_0_00000000_0000000000000000#32 = .ok .bsLen ∧
    decode 0b000100_0_0_00000000_0000000000000000#32 = .ok .bsEnd := by decide

theorem test_decode_reversal :
    decode 0b001000_0_0_00000000_0000000000000000#32 = .ok .revB ∧
    decode 0b001001_0_0_00000000_0000000000000000#32 = .ok .revBs ∧
    decode 0b001010_0_0_00000000_1111111111111111#32 = .ok (.revI 65535) := by decide

theorem test_decode_integerFields :
    decode 0b010000_1_0_00000000_0000000000001000#32 = .ok (.serU true 8) ∧
    decode 0b010000_0_0_00000000_0000000000000000#32 = .ok (.serU false 0) ∧
    decode 0b010001_0_0_00000000_0000000000000000#32 = .ok .desU ∧
    decode 0b010010_0_0_00000000_0000000000010000#32 = .ok (.serS false 16) ∧
    decode 0b010011_0_0_00000000_0000000000000000#32 = .ok .desS := by decide

theorem test_decode_scaledFields :
    decode 0b010100_1_0_00000000_1000000000000001#32 = .ok (.serRu true 32769) ∧
    decode 0b010101_0_0_00000000_0000000000000000#32 = .ok .desRu ∧
    decode 0b010110_0_0_00000000_0000000000001100#32 = .ok (.serRs false 12) ∧
    decode 0b010111_0_0_00000000_0000000000000000#32 = .ok .desRs ∧
    decode 0b011000_1_0_00000000_0000000000001100#32 = .ok (.serRo true 12) ∧
    decode 0b011001_0_0_00000000_0000000000000000#32 = .ok .desRo := by decide

theorem test_decode_otherFields :
    decode 0b011010_0_0_00000000_0000000000000000#32 = .ok .serBool ∧
    decode 0b011011_0_0_00000000_0000000000000000#32 = .ok .desBool ∧
    decode 0b011100_0_0_00000000_0000000001000000#32 = .ok (.serTxt 64) ∧
    decode 0b011101_0_0_00000000_0000000000000000#32 = .ok .desTxt ∧
    decode 0b011110_0_0_00000011_0000000000000100#32 = .ok (.serEnum 3 4) ∧
    decode 0b011111_0_0_11111111_0000000000000000#32 = .ok (.desEnum 255) := by decide

theorem test_decode_transport :
    decode 0b100000_0_0_00000000_0000000000000000#32 = .ok .esc ∧
    decode 0b100001_0_0_00000000_0000000000000000#32 = .ok .unesc ∧
    decode 0b100010_0_0_00000000_0000000011111111#32 = .ok (.crcTab 255) ∧
    decode 0b100011_0_0_00000000_0000000000000000#32 = .ok .crcGen ∧
    decode 0b100100_0_0_00000000_0000000000000000#32 = .ok .crcChk ∧
    decode 0b100100_1_0_00000000_0000000000000000#32 = .ok .crcChks := by decide

theorem test_decode_frames :
    decode 0b101000_1_0_00000000_0000000000000000#32 = .ok (.frmBuild true) ∧
    decode 0b101000_0_0_00000000_0000000000000000#32 = .ok (.frmBuild false) ∧
    decode 0b101001_1_0_00000000_0000000000000001#32 = .ok (.frmDecon true 1) ∧
    decode 0b101001_0_0_00000000_0000000100000010#32 = .ok (.frmDecon false 258) ∧
    decode 0b101010_0_0_00000000_0000000000000000#32 = .ok .frmSplit := by decide

theorem test_decode_status :
    decode 0b111110_0_0_00000000_0000000000000000#32 = .ok .stRd ∧
    decode 0b111111_0_0_00000000_0000000000000000#32 = .ok .stClr := by decide

/-- T30-01 to T30-10. -/
theorem test_decode_illegal :
    decode 0x00000000#32 = .error .unassignedOpcode ∧
    decode 0xFFFFFFFF#32 = .error .reservedZ ∧
    decode 0x05000000#32 = .error .reservedZ ∧
    decode 0x0E000000#32 = .error .reservedF ∧
    decode 0x0C010000#32 = .error .reservedK ∧
    decode 0x04000001#32 = .error .reservedW ∧
    decode 0x88000100#32 = .error .reservedIndexBits ∧
    decode 0x94000000#32 = .error .unassignedOpcode ∧
    decode 0xF4000000#32 = .error .unassignedOpcode ∧
    decode 0x7C000001#32 = .error .reservedW := by decide

/-- A word whose row the table gives all 32 bits. -/
theorem test_decodeTableWord : decodeTableWord 32 0x08000008 = some (.bsPop 8) ∧ decodeTableWord 32 0 = none := by decide

/-! ## One step on the spec's vectors -/

/-- Zeros and ones as a bit string, front bit first. -/
def bin (l : List Nat) : Bits := l.map fun x => x == 1

/-- A byte string. -/
def hex (l : List Nat) : Bytes := l.map (BitVec.ofNat 8)

/-- A byte string as an operand. -/
def hexValue (l : List Nat) : Value := .seq (l.map Int.ofNat)

/-- The state after reset, with the enumeration tables of 95_test_vectors.md 2.6. -/
def blank : State := { State.reset with params := ⟨none, none, [[], [], [], [0, 1, 2]]⟩ }

/-- Operands on slots op.A, op.B and op.C. -/
def numbers (a b c : Rat) : Operands := { idleOperands with a := .num a, b := .num b, c := .num c }

/-- An operand on slot op.D. -/
def onD (d : Value) : Operands := { idleOperands with d := d }

/-- The response, BS and STATUS after one step that takes the command. -/
def outcome (word : CmdWord) (ops : Operands) (s : State) : Option (Option Response × Bits × BitVec 32) :=
  match step { s with host := [.command ⟨word, ops⟩] } with
  | .next t => some (t.response, t.bs, t.status)
  | .fault _ => none
  | .refused _ => none

/-- The outcome of a command that succeeds and touches neither BS nor STATUS, from `blank`. -/
def gives (word : CmdWord) (ops : Operands) (v : Result) : Prop :=
  outcome word ops blank = some (some (.ok v), [], 0#32)

/-- The outcome of a command that raises an error with the given STATUS, from `blank`. -/
def fails (word : CmdWord) (ops : Operands) (e : ErrorKind) (status : BitVec 32) : Prop :=
  outcome word ops blank = some (some (.err e), [], status)

/-- T40-01. -/
theorem test_bsLoad :
    outcome 0x04000000#32 (onD (.bits (bin [1, 0, 1, 1, 0]))) blank =
      some (some (.ok .unit), bin [1, 0, 1, 1, 0], 0#32) := by decide +kernel

/-- T40-11. -/
theorem test_bsLoad_overCapacity :
    outcome 0x04000000#32 (onD (.bits (bin [1, 0, 1, 1]))) { blank with bs := [true], params := ⟨none, some 3, []⟩ } =
      some (some (.err .badOperand), [true], 0x10B#32) := by decide +kernel

/-- T40-02. -/
theorem test_bsPop :
    outcome 0x08000002#32 idleOperands { blank with bs := bin [1, 0, 1, 1, 0] } =
      some (some (.ok (.bits [true, false])), bin [1, 1, 0], 0#32) := by decide +kernel

/-- T40-05. -/
theorem test_bsPop_short :
    outcome 0x08000004#32 idleOperands { blank with bs := bin [1, 1, 0] } =
      some (some (.err .insufficientBits), bin [1, 1, 0], 0x101#32) := by decide +kernel

/-- T40-04. -/
theorem test_bsLen :
    outcome 0x0C000000#32 idleOperands { blank with bs := bin [1, 1, 0] } =
      some (some (.ok (.nat 3)), bin [1, 1, 0], 0#32) := by decide +kernel

/-- T40-07. -/
theorem test_bsEnd :
    outcome 0x10000000#32 idleOperands blank = some (some (.ok .unit), [], 0#32) := by decide +kernel

/-- T40-08. -/
theorem test_bsEnd_leftover :
    outcome 0x10000000#32 idleOperands { blank with bs := [false] } =
      some (some (.err .dataTooLong), [false], 0x104#32) := by decide +kernel

/-- T40-24. -/
theorem test_revB : gives 0x20000000#32 (numbers 0x12 0 0) (.nat 0x48) := by
  unfold gives; decide +kernel

/-- T40-25. -/
theorem test_revB_wide : fails 0x20000000#32 (numbers 256 0 0) .badOperand 0x10B#32 := by
  unfold fails; decide +kernel

/-- T40-26. -/
theorem test_revBs : gives 0x24000000#32 (onD (hexValue [0x01, 0x02, 0x03, 0x04, 0x05])) (.bytes (hex [0x80, 0x40, 0xC0, 0x20, 0xA0])) := by
  unfold gives; decide +kernel

/-- T40-27. -/
theorem test_revBs_empty : gives 0x24000000#32 (onD (hexValue [])) (.bytes []) := by
  unfold gives; decide +kernel

/-- T40-29. -/
theorem test_revI : gives 0x28000003#32 (numbers 0x0001FF 0 0) (.nat 0x0080FF) := by
  unfold gives; decide +kernel

/-- T40-30. -/
theorem test_revI_wide : fails 0x28000001#32 (numbers 256 0 0) .badOperand 0x10B#32 := by
  unfold fails; decide +kernel

/-- V1-06. -/
theorem test_serU_saturates : gives 0x42000008#32 (numbers 256 0 0) (.bits (bin [1, 1, 1, 1, 1, 1, 1, 1])) := by
  unfold gives; decide +kernel

/-- T41-04. -/
theorem test_serU_negative : fails 0x42000008#32 (numbers (-1) 0 0) .unexpectedNegative 0x103#32 := by
  unfold fails; decide +kernel

/-- T41-20. -/
theorem test_desU : gives 0x44000000#32 (onD (.bits (bin [0, 0, 0, 1]))) (.nat 1) := by
  unfold gives; decide +kernel

/-- T41-21. -/
theorem test_desU_empty : fails 0x44000000#32 (onD (.bits (bin []))) .badIntegerSize 0x102#32 := by
  unfold fails; decide +kernel

/-- T41-14. -/
theorem test_serS_lowest : gives 0x4A000008#32 (numbers (-200) 0 0) (.bits (bin [1, 0, 0, 0, 0, 0, 0, 0])) := by
  unfold gives; decide +kernel

/-- T41-12. -/
theorem test_serS_wide : fails 0x48000008#32 (numbers 128 0 0) .badIntegerSize 0x102#32 := by
  unfold fails; decide +kernel

/-- T41-24. -/
theorem test_desS : gives 0x4C000000#32 (onD (.bits (bin [1, 1, 0, 1, 1, 0, 1, 1, 1, 1, 0, 1, 0, 0, 0, 0]))) (.int (-9264)) := by
  unfold gives; decide +kernel

/-- T41-22. -/
theorem test_desS_one : gives 0x4C000000#32 (onD (.bits (bin [1]))) (.int (-1)) := by
  unfold gives; decide +kernel

/-- T41-30. -/
theorem test_serRu_half : gives 0x50000008#32 (numbers 75 50 0) (.bits (bin [0, 0, 0, 0, 0, 0, 1, 0])) := by
  unfold gives; decide +kernel

/-- T41-33. -/
theorem test_serRu_negative_half : fails 0x50000008#32 (numbers (-25) 50 0) .unexpectedNegative 0x103#32 := by
  unfold fails; decide +kernel

/-- V1-12. -/
theorem test_desRu : gives 0x54000000#32 ({ onD (.bits (bin [0, 0, 0, 0, 0, 1, 0, 1])) with b := .num (3 / 2) }) (.rat (15 / 2)) := by
  unfold gives; decide +kernel

/-- T41-52. -/
theorem test_desRu_ones : gives 0x54000000#32 ({ onD (.bits (bin [1, 1, 1, 1, 1, 1, 1, 1])) with b := .num 50 }) (.rat 12750) := by
  unfold gives; decide +kernel

/-- T41-39. -/
theorem test_serRs_negative_half : gives 0x5800000C#32 (numbers (-125) 50 0) (.bits (bin [1, 1, 1, 1, 1, 1, 1, 1, 1, 1, 0, 1])) := by
  unfold gives; decide +kernel

/-- T41-43. -/
theorem test_serRs_saturates : gives 0x5A00000C#32 (numbers (-1000000) 50 0) (.bits (bin [1, 0, 0, 0, 0, 0, 0, 0, 0, 0, 0, 0])) := by
  unfold gives; decide +kernel

/-- T41-53. -/
theorem test_desRs : gives 0x5C000000#32 ({ onD (.bits (bin [1, 1, 1, 1, 1, 1, 1, 1, 1, 1, 1, 0])) with b := .num 50 }) (.rat (-100)) := by
  unfold gives; decide +kernel

/-- T41-54. -/
theorem test_desRs_resolution : fails 0x5C000000#32 ({ onD (.bits (bin [1])) with b := .num 0 }) .badOperand 0x10B#32 := by
  unfold fails; decide +kernel

/-- T41-49. -/
theorem test_serRo_largest : gives 0x6000000C#32 (numbers 101375 (-1000) 25) (.bits (bin [1, 1, 1, 1, 1, 1, 1, 1, 1, 1, 1, 1])) := by
  unfold gives; decide +kernel

/-- T41-47. -/
theorem test_serRo_negative_half : fails 0x6000000C#32 (numbers (-2025 / 2) (-1000) 25) .unexpectedNegative 0x103#32 := by
  unfold fails; decide +kernel

/-- T41-55. -/
theorem test_desRo : gives 0x64000000#32 ({ onD (.bits (bin [0, 0, 0, 0, 0, 1, 0, 1, 0, 0, 0, 0])) with b := .num (-1000), c := .num 25 }) (.rat 1000) := by
  unfold gives; decide +kernel

/-- T41-57. -/
theorem test_desRo_empty : fails 0x64000000#32 ({ onD (.bits (bin [])) with b := .num (-1000), c := .num 0 }) .badIntegerSize 0x102#32 := by
  unfold fails; decide +kernel

/-- T41-60. -/
theorem test_serBool : gives 0x68000000#32 (numbers 1 0 0) (.bits [true]) := by
  unfold gives; decide +kernel

/-- T41-62. -/
theorem test_serBool_two : fails 0x68000000#32 (numbers 2 0 0) .badOperand 0x10B#32 := by
  unfold fails; decide +kernel

/-- T41-63. -/
theorem test_desBool : gives 0x6C000000#32 (onD (.bits (bin [0]))) (.bool false) := by
  unfold gives; decide +kernel

/-- T41-64. -/
theorem test_desBool_two_bits : fails 0x6C000000#32 (onD (.bits (bin [1, 0]))) .badIntegerSize 0x102#32 := by
  unfold fails; decide +kernel

/-- T41-65. -/
theorem test_serTxt_pads : gives 0x70000040#32 (onD (hexValue [0x4E, 0x38, 0x32, 0x35, 0x56])) (.bits (bytesToBits (hex [0x4E, 0x38, 0x32, 0x35, 0x56, 0x20, 0x20, 0x20]))) := by
  unfold gives; decide +kernel

/-- T41-70. -/
theorem test_serTxt_beyond_the_cut : fails 0x70000008#32 (onD (hexValue [0x41, 0x80])) .badOperand 0x10B#32 := by
  unfold fails; decide +kernel

/-- T41-73. -/
theorem test_desTxt : gives 0x74000000#32 (onD (.bits (bytesToBits (hex [0xC1])))) (.bytes (hex [0xC1])) := by
  unfold gives; decide +kernel

/-- T41-72. -/
theorem test_desTxt_seven_bits : fails 0x74000000#32 (onD (.bits (bin [1, 0, 1, 0, 1, 0, 1]))) .badOperand 0x10B#32 := by
  unfold fails; decide +kernel

/-- T41-74. -/
theorem test_serEnum : gives 0x78030004#32 (numbers 2 0 0) (.bits (bin [0, 0, 1, 0])) := by
  unfold gives; decide +kernel

/-- T41-76. -/
theorem test_serEnum_narrow : fails 0x78030001#32 (numbers 2 0 0) .badIntegerSize 0x102#32 := by
  unfold fails; decide +kernel

/-- T41-78. -/
theorem test_desEnum : gives 0x7C030000#32 (onD (.bits (bin [0, 0, 1, 0]))) (.nat 2) := by
  unfold gives; decide +kernel

/-- T41-79. -/
theorem test_desEnum_unknown : fails 0x7C030000#32 (onD (.bits (bin [0, 0, 1, 1]))) .unknownEnumValue 0x10C#32 := by
  unfold fails; decide +kernel

/-- T42-01. -/
theorem test_esc : gives 0x80000000#32 (onD (hexValue [0x01, 0x7E, 0x02])) (.bytes (hex [0x01, 0x7D, 0x5E, 0x02])) := by
  unfold gives; decide +kernel

/-- V1-05. -/
theorem test_esc_all : gives 0x80000000#32 (onD (hexValue [0x7D, 0x7E, 0x7D, 0x7E])) (.bytes (hex [0x7D, 0x5D, 0x7D, 0x5E, 0x7D, 0x5D, 0x7D, 0x5E])) := by
  unfold gives; decide +kernel

/-- T42-05. -/
theorem test_unesc_flag : gives 0x84000000#32 (onD (hexValue [0x7D, 0x7E])) (.bytes (hex [0x5E])) := by
  unfold gives; decide +kernel

/-- T42-08. -/
theorem test_unesc_trailing : fails 0x84000000#32 (onD (hexValue [0x01, 0x7D])) .invalidFrame 0x10A#32 := by
  unfold fails; decide +kernel

/-- T42-26. -/
theorem test_crcTab : gives 0x880000FF#32 (idleOperands) (.nat 0x1EF0) := by
  unfold gives; decide +kernel

/-- T42-24. -/
theorem test_crcTab_inner : gives 0x8800007E#32 (idleOperands) (.nat 0x9F59) := by
  unfold gives; decide +kernel

/-- V1-01. -/
theorem test_crcGen : gives 0x8C000000#32 (onD (hexValue [0x00, 0x81, 0x41, 0xDB, 0xD0, 0x08, 0x02])) (.bytes (hex [0xB3, 0x8B])) := by
  unfold gives; decide +kernel

/-- T42-33. -/
theorem test_crcGen_digits : gives 0x8C000000#32 (onD (hexValue [0x31, 0x32, 0x33, 0x34, 0x35, 0x36, 0x37, 0x38, 0x39])) (.bytes (hex [0xEF, 0xBE])) := by
  unfold gives; decide +kernel

/-- T42-35. -/
theorem test_crcChk_swapped : fails 0x90000000#32 ({ onD (hexValue [0x00, 0x81, 0x41, 0xDB, 0xD0, 0x08, 0x02]) with e := hexValue [0x8B, 0xB3] }) .invalidCrc 0x107#32 := by
  unfold fails; decide +kernel

/-- V1-04. -/
theorem test_crcChk : gives 0x90000000#32 ({ onD (hexValue [0x00, 0x81, 0x41, 0xDB, 0xD0, 0x08, 0x02]) with e := hexValue [0xB3, 0x8B] }) (.unit) := by
  unfold gives; decide +kernel

/-- T42-39. -/
theorem test_crcChks_swapped : gives 0x92000000#32 ({ onD (hexValue [0x00, 0x81, 0x41, 0xDB, 0xD0, 0x08, 0x02]) with e := hexValue [0x8B, 0xB3] }) (.bool false) := by
  unfold gives; decide +kernel

/-- T42-38. -/
theorem test_crcChks_long : fails 0x92000000#32 ({ onD (hexValue [0x00]) with e := hexValue [0x00, 0x00, 0x00] }) .badOperand 0x10B#32 := by
  unfold fails; decide +kernel

/-- V1-03. -/
theorem test_frmBuild_lsb : gives 0xA2000000#32 ({ onD (.bits (bytesToBits (hex [0x01, 0x02, 0x03, 0x04, 0x05]))) with l := hexValue [0x00] }) (.bytes (hex [0x7E, 0x00, 0x80, 0x40, 0xC0, 0x20, 0xA0, 0x2C, 0xA6, 0x7E])) := by
  unfold gives; decide +kernel

/-- T42-58. -/
theorem test_frmBuild_escapes : gives 0xA0000000#32 ({ onD (.bits (bytesToBits (hex [0x7E]))) with l := hexValue [0x0A] }) (.bytes (hex [0x7E, 0x0A, 0x7D, 0x5E, 0x7D, 0x5E, 0x0A, 0x7E])) := by
  unfold gives; decide +kernel

/-- T42-72. -/
theorem test_frmDecon : gives 0xA4000002#32 (onD (hexValue [0x7E, 0x07, 0x01, 0xAA, 0x4D, 0x71, 0x7E])) (.message [7, 1] (bytesToBits (hex [0xAA]))) := by
  unfold gives; decide +kernel

/-- T42-75. -/
theorem test_frmDecon_wrong_polarity : fails 0xA4000001#32 (onD (hexValue [0x7E, 0x00, 0x80, 0x40, 0xC0, 0x20, 0xA0, 0x2C, 0xA6, 0x7E])) .invalidCrc 0x107#32 := by
  unfold fails; decide +kernel

/-- T42-93. -/
theorem test_frmSplit_doubled : gives 0xA8000000#32 (onD (hexValue [0x7E, 0x00, 0x01, 0x7E, 0x7E, 0x02, 0x03, 0x7E])) (.frames [hex [0x7E, 0x00, 0x01, 0x7E], hex [0x7E, 0x02, 0x03, 0x7E]]) := by
  unfold gives; decide +kernel

/-- T42-95. -/
theorem test_frmSplit_leading : fails 0xA8000000#32 (onD (hexValue [0x00, 0x7E, 0x01, 0x7E])) .missingFlagBytes 0x106#32 := by
  unfold fails; decide +kernel

/-- T43-03. -/
theorem test_stRd :
    outcome 0xF8000000#32 idleOperands { blank with status := 0x102#32 } =
      some (some (.ok (.nat 0x102)), [], 0x102#32) := by decide +kernel

/-- T43-06. -/
theorem test_stClr :
    outcome 0xFC000000#32 idleOperands { blank with status := 0x101#32, bs := [true] } =
      some (some (.ok .unit), [true], 0#32) := by decide +kernel

/-- T60-01. -/
theorem test_illegal_before_operands : fails 0x40010008#32 (numbers (-1) 0 0) .illegalCommand 0x10D#32 := by
  unfold fails; decide +kernel

/-- T60-03. -/
theorem test_wrong_type : fails 0x40000008#32 ({ idleOperands with a := hexValue [0x78] }) .badOperand 0x10B#32 := by
  unfold fails; decide +kernel

/-- T70-01: reset, whatever the state was. -/
theorem test_reset_event : step { blank with bs := [true], status := 0x102#32, host := [.reset none] } = .next blank := by
  rfl

/-- Waiting changes nothing (log 9). -/
theorem test_waiting : step State.reset = .next State.reset := rfl

/-- The host's placing of a command: the very next step runs it. -/
theorem test_withFetchWord : step (State.reset.withFetchWord 32 0x0C000000) =
    .next { State.reset with response := some (.ok (.nat 0)) } := rfl

/-! ## Witnesses: the hypotheses of each statement can be met, clause by clause, at the boundaries -/

/-- `blank` with numbers on op.A, op.B and op.C. -/
def nums (a b c : Rat) : State := { blank with operands := numbers a b c }

/-- `blank` with a value on op.D. -/
def dval (d : Value) : State := { blank with operands := onD d }

/-- `blank` with a bit string on op.D and numbers on op.B and op.C. -/
def dnums (d : Bits) (b c : Rat) : State := { blank with operands := { numbers 0 b c with d := .bits d } }

/-- `blank` with message IDs on op.L and a bit string on op.D. -/
def frame (ids : List Nat) (p : Bits) : State :=
  { blank with operands := { onD (.bits p) with l := .seq (ids.map Int.ofNat) } }

/-- `blank` with the command next. -/
def issuing (word : CmdWord) (ops : Operands) : State := { blank with host := [.command ⟨word, ops⟩] }

theorem witness_DecodeEncodeRoundTrip : WellFormed (.serEnum 255 65535) = true ∧ WellFormed .stClr = true := by decide

theorem witness_LegalWordsAreEncodings : decode 0x78030004#32 = .ok (.serEnum 3 4) ∧ decode 0xFC000000#32 = .ok .stClr := by
  decide

theorem witness_IllegalWordsRaiseIllegalCommand :
    (∀ w ∈ [0x00000000#32, 0x05000000#32, 0x0E000000#32, 0x0C010000#32, 0x04000001#32, 0x88000100#32],
      IllegalForm w ∧ (issuing w (numbers 0 0 0)).host = .command ⟨w, numbers 0 0 0⟩ :: []) ∧
    ¬ IllegalForm 0x880000FF#32 := by
  simp only [List.forall_mem_cons, IllegalForm]
  refine ⟨⟨⟨by decide, rfl⟩, ⟨by decide, rfl⟩, ⟨by decide, rfl⟩, ⟨by decide, rfl⟩, ⟨by decide, rfl⟩, ⟨by decide, rfl⟩,
    by simp⟩, by decide⟩

theorem witness_StepRunsTheDecodedCommand :
    ((issuing 0x0C000000#32 idleOperands).host = .command ⟨0x0C000000#32, idleOperands⟩ :: [] ∧
      decode 0x0C000000#32 = .ok .bsLen ∧
      operandOverMax (issuing 0x0C000000#32 idleOperands).params .bsLen idleOperands = false ∧
      exec .bsLen { issuing 0x0C000000#32 idleOperands with operands := idleOperands, host := [] } =
        .next { blank with response := some (.ok (.nat 0)) }) ∧
    operandOverMax ⟨some 1, none, []⟩ .bsLoad (onD (.bits (List.replicate 9 true))) = true ∧
    operandOverMax ⟨some 1, none, []⟩ .bsLoad (onD (.bits (List.replicate 8 true))) = false :=
  ⟨⟨rfl, rfl, rfl, rfl⟩, by decide, by decide⟩

theorem witness_OperandOverTheBoundIsRefused :
    ((issuing 0x04000000#32 (onD (.bits (List.replicate 9 true)))).host =
        .command ⟨0x04000000#32, onD (.bits (List.replicate 9 true))⟩ :: [] ∧
      decode 0x04000000#32 = .ok .bsLoad ∧ Slot.d ∈ (signature .bsLoad).map Prod.fst ∧
      8 * 1 < (List.replicate 9 true).length ∧ ¬ 8 * 1 < (List.replicate 8 true).length) ∧
    (decode 0x90000000#32 = .ok .crcChk ∧ Slot.e ∈ (signature .crcChk).map Prod.fst ∧ Slot.e ≠ .l ∧
      1 < [(0 : Int), 0].length) ∧
    (decode 0xA0000000#32 = .ok (.frmBuild false) ∧ Slot.l ∈ (signature (.frmBuild false)).map Prod.fst) :=
  ⟨⟨rfl, by decide, by decide, by decide, by decide⟩, by decide, by decide⟩

/-- R48, R185 step 2: a bit string of 9 bits on op.L is refused at a bound of 1 byte, before its type is looked at; one of 8
bits is within the bound. -/
theorem test_bits_on_opL :
    step { issuing 0xA0000000#32 { onD (.bits []) with l := .bits (List.replicate 9 true) } with
        params := ⟨some 1, none, []⟩ } = .refused .operandOverMaxBuf ∧
    operandOverMax ⟨some 1, none, []⟩ (.frmBuild false) { onD (.bits []) with l := .bits (List.replicate 8 true) } = false :=
  ⟨rfl, by decide⟩

theorem witness_ResetInputResetsTheBlock :
    ({ blank with bs := [true], host := [.reset (some ⟨0#32, idleOperands⟩)] } : State).host =
      .reset (some ⟨0#32, idleOperands⟩) :: [] := rfl

theorem witness_ResetValues :
    crctListing[255]? = some 0x1EF0 ∧ ({ Config.reference with enumTables := [] } : Config.Params).maxBufBytes = none :=
  ⟨rfl, rfl⟩

theorem witness_BsLoadReplacesBs :
    (dval (.bits [true, false])).operands.d = .bits [true, false] ∧
    (∀ m, ({ dval (.bits [true, false]) with params := ⟨none, some 2, []⟩ } : State).params.maxBsBits = some m →
      [true, false].length ≤ m) ∧
    (({ dval (.bits [true, false]) with params := ⟨none, some 1, []⟩ } : State).params.maxBsBits = some 1 ∧
      1 < [true, false].length) :=
  ⟨rfl, by intro m h; cases h; decide, rfl, by decide⟩

theorem witness_BsPopTakesThePrefix :
    (({ blank with bs := [true, false] } : State).bs = [true, false] ++ [] ∧ [true, false].length = 2) ∧
    ({ blank with bs := [true, false] } : State).bs.length < 3 := by decide

theorem witness_BsEndDetectsLeftoverBits : blank.bs = [] ∧ ({ blank with bs := [false] } : State).bs ≠ [] := by decide

theorem witness_PopAfterLoadSeesTheLoadedBits :
    let s : State := { blank with
      host := [.command ⟨0x04000000#32, onD (.bits [true, false])⟩, .command ⟨BitVec.ofNat 32 (0x08000000 + 2), idleOperands⟩]
      params := ⟨some 1, some 2, []⟩ }
    s.host = .command ⟨0x04000000#32, onD (.bits [true, false])⟩ ::
        .command ⟨BitVec.ofNat 32 (0x08000000 + 2), idleOperands⟩ :: [] ∧
      (onD (.bits [true, false])).d = .bits [true, false] ∧ 2 ≤ [true, false].length ∧ 2 < 65536 ∧
      (∀ m, s.params.maxBufBytes = some m → [true, false].length ≤ 8 * m) ∧
      (∀ m, s.params.maxBsBits = some m → [true, false].length ≤ m) :=
  ⟨rfl, rfl, by decide, by decide, by intro m h; cases h; decide, by intro m h; cases h; decide⟩

theorem witness_RevBReversesAByte :
    (nums 255 0 0).operands.a = .num ((((255#8 : Byte).toNat : Int)) : Rat) ∧
    (∀ b : Byte, (nums 256 0 0).operands.a ≠ .num ((b.toNat : Int) : Rat)) ∧
    (∀ b : Byte, (dval (.bits [])).operands.d ≠ .num ((b.toNat : Int) : Rat)) := by
  refine ⟨by decide +kernel, ?_, by intro b h; cases h⟩
  intro b h
  have h1 : (256 : Rat) = ((b.toNat : Int) : Rat) := Value.num.inj h
  have h2 : (256 : Int) = (b.toNat : Int) := by exact_mod_cast h1
  have := b.isLt
  omega

theorem witness_RevBsReversesEveryByte :
    (dval (hexValue [0x01, 0xFF])).operands.d = bytesValue (hex [0x01, 0xFF]) ∧
    (dval (hexValue [])).operands.d = bytesValue [] := by decide +kernel

theorem witness_RevIReversesInsideBytes :
    ((nums 256 0 0).operands.a = .num ((256 : Int) : Rat) ∧ (2 : Int) ^ (8 * 1) ≤ 256) ∧
    ((nums (-1) 0 0).operands.a = .num ((-1 : Int) : Rat) ∧ (-1 : Int) < 0) ∧
    (1 ≠ 0 ∧ (nums 255 0 0).operands.a = .num ((255 : Nat) : Rat) ∧ 255 < 2 ^ (8 * 1)) := by decide +kernel

theorem witness_ReversingTwiceIsTheIdentity :
    ((nums 1 0 0).operands.a = .num ((1 : Nat) : Rat) ∧ withByte (nums 1 0 0).operands.a (fun b => .ok (.nat (rev8 b).toNat)) = .ok (.nat 0x80)) ∧
    ((dval (hexValue [1])).operands.d = bytesValue (hex [1]) ∧ Answers .revBs (dval (hexValue [1])) (.bytes (hex [0x80]))) ∧
    ((nums 1 0 0).operands.a = .num ((1 : Nat) : Rat) ∧ withNat (nums 1 0 0).operands.a (fun v => revInt 1 v) = .ok (.nat 0x80)) :=
  ⟨⟨by decide +kernel, by decide +kernel⟩, ⟨by decide +kernel, rfl⟩, ⟨by decide +kernel, by decide +kernel⟩⟩

/-- The boundary values of an unsigned field of 8 bits, one for each clause of `PutsUnsigned`. -/
theorem witness_PutsUnsigned :
    8 ≠ 0 ∧ (-1 : Int) < 0 ∧ ((0 : Int) ≤ 0 ∧ (0 : Int) ≤ 2 ^ 8 - 1) ∧ ((0 : Int) ≤ 255 ∧ (255 : Int) ≤ 2 ^ 8 - 1) ∧
      (2 : Int) ^ 8 - 1 < 256 := by decide

/-- The boundary values of a signed field of 8 bits, one for each clause of `PutsSigned`. -/
theorem witness_PutsSigned :
    8 ≠ 0 ∧ (-2 ^ (8 - 1) ≤ (-128 : Int) ∧ (-128 : Int) ≤ 2 ^ (8 - 1) - 1) ∧
      (-2 ^ (8 - 1) ≤ (127 : Int) ∧ (127 : Int) ≤ 2 ^ (8 - 1) - 1) ∧ (-129 : Int) < -2 ^ (8 - 1) ∧
      (2 : Int) ^ (8 - 1) - 1 < 128 := by decide

theorem witness_SerUWritesAnUnsignedField :
    ∀ v ∈ [(-1 : Int), 0, 255, 256], (nums (v : Rat) 0 0).operands.a = .num (v : Rat) := fun _ _ => rfl

theorem witness_SerSWritesASignedField :
    ∀ v ∈ [(-129 : Int), -128, 127, 128], (nums (v : Rat) 0 0).operands.a = .num (v : Rat) := fun _ _ => rfl

theorem witness_DesUReadsAnUnsignedField :
    (dval (.bits [])).operands.d = .bits [] ∧ (dval (.bits [true])).operands.d = .bits [true] ∧ [true] ≠ [] :=
  ⟨rfl, rfl, by decide⟩

theorem witness_DesSReadsASignedField :
    (dval (.bits [])).operands.d = .bits [] ∧ (dval (.bits [true, false])).operands.d = .bits [true, false] ∧
      [true, false] ≠ [] := ⟨rfl, rfl, by decide⟩

/-- A value, a resolution that is not positive and one that is, and a rounded quotient for each clause of the unsigned step. -/
theorem witness_SerRuScalesAndRounds :
    ((nums (-25) 50 0).operands.a = .num (-25) ∧ (nums (-25) 50 0).operands.b = .num 50 ∧ (0 : Rat) < 50) ∧
    (0 : Rat) ≤ 0 ∧ rhaz (-25 / 50) = -1 ∧ rhaz (-20 / 50) = 0 ∧ rhaz (12750 / 50) = 255 ∧ rhaz (12775 / 50) = 256 := by
  decide +kernel

theorem witness_SerRsScalesAndRounds :
    ((nums (-6425) 50 0).operands.a = .num (-6425) ∧ (nums (-6425) 50 0).operands.b = .num 50 ∧ (0 : Rat) < 50) ∧
    (0 : Rat) ≤ 0 ∧ rhaz (-6425 / 50) = -129 ∧ rhaz (-6400 / 50) = -128 ∧ rhaz (6374 / 50) = 127 ∧ rhaz (6375 / 50) = 128 := by
  decide +kernel

theorem witness_SerRoSubtractsTheOffset :
    ((nums (-2025 / 2) (-1000) 25).operands.a = .num (-2025 / 2) ∧ (nums (-2025 / 2) (-1000) 25).operands.b = .num (-1000) ∧
      (nums (-2025 / 2) (-1000) 25).operands.c = .num 25 ∧ (0 : Rat) < 25) ∧
    (0 : Rat) ≤ 0 ∧ rhaz ((-2025 / 2 - -1000) / 25) = -1 ∧ rhaz ((-1000 - -1000) / 25) = 0 ∧
      rhaz ((5375 - -1000) / 25) = 255 ∧ rhaz ((5400 - -1000) / 25) = 256 := by
  decide +kernel

/-- The empty string, a resolution of 0 and a positive one, for DesRuMultipliesBack, DesRsMultipliesBack and DesRoAddsTheOffset. -/
theorem witness_ScaledDes :
    (∀ d ∈ [[], [true]], ∀ res ∈ [(0 : Rat), 50],
      (dnums d res res).operands.d = .bits d ∧ (dnums d res res).operands.b = .num res ∧
        (dnums d res res).operands.c = .num res) ∧ [true] ≠ [] ∧ (0 : Rat) ≤ 0 ∧ (0 : Rat) < 50 :=
  ⟨fun _ _ _ _ => ⟨rfl, rfl, rfl⟩, by decide, by decide +kernel, by decide +kernel⟩

theorem witness_SerBoolWritesOneBit :
    (nums 0 0 0).operands.a = .num 0 ∧ (nums 1 0 0).operands.a = .num 1 ∧
      ((nums 2 0 0).operands.a ≠ .num 0 ∧ (nums 2 0 0).operands.a ≠ .num 1) ∧
      ((nums (1 / 2) 0 0).operands.a ≠ .num 0 ∧ (nums (1 / 2) 0 0).operands.a ≠ .num 1) := by decide +kernel

theorem witness_DesBoolReadsOneBit :
    (dval (.bits [true])).operands.d = .bits [true] ∧ (dval (.bits [])).operands.d = .bits [] ∧ ([] : Bits).length ≠ 1 ∧
      [true, true].length ≠ 1 := ⟨rfl, rfl, by decide, by decide⟩

theorem witness_SerTxtPadsOrTruncates :
    (dval (hexValue [0x7F])).operands.d = bytesValue (hex [0x7F]) ∧ (0 = 0 ∨ 0 % 8 ≠ 0) ∧ (12 = 0 ∨ 12 % 8 ≠ 0) ∧
    (∃ b ∈ hex [0x41, 0x80], 0x7F < b.toNat) ∧ (16 ≠ 0 ∧ 16 % 8 = 0 ∧ ∀ b ∈ hex [0x7F], b.toNat ≤ 0x7F) := by
  decide +kernel

theorem witness_DesTxtReturnsEveryByte :
    (dval (.bits (List.replicate 8 true))).operands.d = .bits (List.replicate 8 true) ∧
    (List.replicate 7 true = [] ∨ (List.replicate 7 true).length % 8 ≠ 0) ∧
    (List.replicate 8 true ≠ [] ∧ (List.replicate 8 true).length % 8 = 0) := ⟨rfl, by decide, by decide⟩

theorem witness_SerEnumWritesAMember :
    (∀ v ∈ [(-1 : Int), 2, 3], (nums (v : Rat) 0 0).operands.a = .num (v : Rat)) ∧
    (2 ≠ 0 ∧ ¬ (0 ≤ (-1 : Int) ∧ (-1 : Int).toNat ∈ blank.params.enumTables.getD 3 [])) ∧
    (2 ≠ 0 ∧ ¬ (0 ≤ (3 : Int) ∧ (3 : Int).toNat ∈ blank.params.enumTables.getD 3 [])) ∧
    (1 ≠ 0 ∧ 0 ≤ (2 : Int) ∧ (2 : Int).toNat ∈ blank.params.enumTables.getD 3 [] ∧ (2 : Int) ^ 1 - 1 < 2) ∧
    (2 ≠ 0 ∧ 0 ≤ (2 : Int) ∧ (2 : Int).toNat ∈ blank.params.enumTables.getD 3 [] ∧ (2 : Int) ≤ 2 ^ 2 - 1) :=
  ⟨fun _ _ => rfl, by decide, by decide, by decide, by decide⟩

theorem witness_DesEnumReadsAMember :
    (dval (.bits [true, false])).operands.d = .bits [true, false] ∧ [true, false] ≠ [] ∧
    uint [true, false] ∈ blank.params.enumTables.getD 3 [] ∧ uint [true, true] ∉ blank.params.enumTables.getD 3 [] :=
  ⟨rfl, by decide, by decide, by decide⟩

theorem witness_IntegerFieldsRoundTrip :
    (∀ v ∈ [(-129 : Int), -128, 0, 127, 255, 256], (nums (v : Rat) 0 0).operands.a = .num (v : Rat)) ∧ 8 ≠ 0 ∧
    (0 ≤ (256 : Int) ∧ (true = true ∨ (256 : Int) ≤ 2 ^ 8 - 1)) ∧ (0 ≤ (255 : Int) ∧ (false = true ∨ (255 : Int) ≤ 2 ^ 8 - 1)) ∧
    (false = true ∨ (-2 ^ (8 - 1) ≤ (-128 : Int) ∧ (-128 : Int) ≤ 2 ^ (8 - 1) - 1)) :=
  ⟨fun _ _ => rfl, by decide, by decide, by decide, by decide⟩

theorem witness_ScaledFieldsRoundTripOnTheGrid :
    8 ≠ 0 ∧ (0 : Rat) < 50 ∧
    ((nums 12750 50 0).operands.a = .num 12750 ∧ (nums 12750 50 0).operands.b = .num 50 ∧ RoundsTo (12750 / 50) 255 ∧
      (0 : Int) ≤ 255 ∧ (255 : Int) ≤ 2 ^ 8 - 1) ∧
    ((nums (-75) 50 0).operands.b = .num 50 ∧ RoundsTo (-75 / 50) (-2) ∧ -2 ^ (8 - 1) ≤ (-2 : Int) ∧
      (-2 : Int) ≤ 2 ^ (8 - 1) - 1) ∧
    ((nums 5350 (-1000) 50).operands.b = .num (-1000) ∧ (nums 5350 (-1000) 50).operands.c = .num 50 ∧
      RoundsTo ((5350 - -1000) / 50) 127 ∧ (0 : Int) ≤ 127 ∧ (127 : Int) ≤ 2 ^ 8 - 1) := by
  have h1 := Laws.rhaz_roundsTo (12750 / 50)
  have h2 := Laws.rhaz_roundsTo (-75 / 50)
  have h3 := Laws.rhaz_roundsTo ((5350 - -1000) / 50)
  rw [show rhaz (12750 / 50) = 255 by decide +kernel] at h1
  rw [show rhaz (-75 / 50) = -2 by decide +kernel] at h2
  rw [show rhaz ((5350 - -1000) / 50) = 127 by decide +kernel] at h3
  exact ⟨by decide, by decide +kernel, ⟨rfl, rfl, h1, by decide, by decide⟩, ⟨rfl, h2, by decide, by decide⟩,
    ⟨rfl, rfl, h3, by decide, by decide⟩⟩

/-- A byte string on op.D, for EscStuffsFlagsAndEscapes, UnescInvertsEsc, CrcGenEmitsLowByteFirst and
CrcGenIsTheBitSerialRemainder. -/
theorem witness_BytesOnD :
    (dval (hexValue [0x7D, 0x7E, 0x00])).operands.d = bytesValue (hex [0x7D, 0x7E, 0x00]) ∧
    (dval (hexValue [])).operands.d = bytesValue [] := by decide +kernel

theorem witness_UnescReadsStuffedUnits :
    UnitsOk [(true, 0x5D#8), (false, 0x7E#8)] ∧
    (dval (hexValue [0x7D, 0x5D, 0x7E])).operands.d = bytesValue (wire [(true, 0x5D#8), (false, 0x7E#8)]) ∧
    (dval (hexValue [0x7D, 0x5D, 0x7E, 0x7D])).operands.d =
      bytesValue (wire [(true, 0x5D#8), (false, 0x7E#8)] ++ [0x7D#8]) := by
  unfold UnitsOk; decide +kernel

theorem witness_EscResultsAreTheStuffedStrings :
    Answers .esc (withD (bytesValue (hex [0x7E])) blank) (.bytes (hex [0x7D, 0x5E])) ∧
    (0x7E#8 ∉ hex [0x7D, 0x5E] ∧ (hex [0x7D, 0x5E])[0]? = some 0x7D#8 ∧ (hex [0x7D, 0x5E])[1]? = some 0x5E#8) :=
  ⟨rfl, by decide⟩

theorem witness_CrcTabReadsTheListedTable :
    crctListing[0]? = some 0 ∧ crctListing[128]? = some 0x9188 ∧ crctListing[255]? = some 0x1EF0 :=
  ⟨rfl, rfl, rfl⟩

/-- Data and CRC on op.D and op.E, for CrcChkComparesWithCrcGen and CrcChksComparesSoftly: the right CRC, a wrong one, one of a wrong length. -/
theorem witness_CrcComparisons :
    (∀ e ∈ [[0x7E, 0x00], [0x7E, 0x01], [0x7E]],
      ({ blank with operands := { onD (hexValue [0x7E]) with e := hexValue e } } : State).operands.e = bytesValue (hex e)) ∧
    ({ blank with operands := { onD (hexValue [0x7E]) with e := hexValue [0x7E, 0x00] } } : State).operands.d =
      bytesValue (hex [0x7E]) ∧
    crcBytes (hex [0x7E]) = hex [0x7E, 0x00] ∧ crcBytes (hex [0x7E]) ≠ hex [0x7E, 0x01] ∧
    (hex [0x7E, 0x01]).length = 2 ∧ (hex [0x7E]).length ≠ 2 ∧
    Answers .crcGen (dval (bytesValue (hex [0x7E]))) (.bytes (hex [0x7E, 0x00])) :=
  ⟨by decide +kernel, by decide +kernel, by decide, by decide, by decide, by decide, rfl⟩

theorem witness_FrmBuildAssemblesAFrame :
    (frame [255] (List.replicate 8 true)).operands.l = .seq ([255].map Int.ofNat) ∧
    (frame [255] (List.replicate 8 true)).operands.d = .bits (List.replicate 8 true) ∧
    (frame [] []).operands.l = .seq (([] : List Nat).map Int.ofNat) ∧ (∃ id ∈ [0, 256], 255 < id) ∧
    (List.replicate 7 true).length % 8 ≠ 0 ∧
    ([255] ≠ [] ∧ (∀ id ∈ [255], id ≤ 255) ∧ (List.replicate 8 true).length % 8 = 0) :=
  ⟨rfl, rfl, rfl, by decide, by decide, by decide⟩

theorem witness_FrmDeconDisassemblesAFrame :
    (dval (hexValue [0x7E, 0, 0, 0, 0x7E])).operands.d =
      bytesValue (0x7E#8 :: wire [(false, 0#8), (false, 0#8), (false, 0#8)] ++ [0x7E#8]) ∧
    (¬ ∃ middle : Bytes, hex [0x7E] = 0x7E#8 :: middle ++ [0x7E#8]) ∧
    UnitsOk [(false, 0#8), (false, 0#8), (false, 0#8)] ∧
    hex [0x7E, 0x7D, 0x7E] = 0x7E#8 :: (wire [] ++ [0x7D#8]) ++ [0x7E#8] ∧
    InvertedBy false (content [(false, 0#8), (false, 0#8), (false, 0#8)]) (hex [0, 0, 0]) ∧
    InvertedBy true (content [(false, 1#8)]) (hex [0x80]) ∧
    (hex [0, 0, 0]).length < 2 + 2 ∧
    (hex [0, 0, 0] = hex [0] ++ hex [0, 0] ∧ (hex [0, 0]).length = 2 ∧ 1 ≤ (hex [0]).length ∧ crcBytes (hex [0]) = hex [0, 0]) ∧
    crcBytes (hex [1]) ≠ hex [0, 0] := by
  refine ⟨by decide +kernel, ?_, by simp [UnitsOk], by decide, rfl, (Laws.invertedBy_iff _ _ _).2 (by decide +kernel), by decide,
    by decide, by decide⟩
  rintro ⟨m, h⟩
  have := congrArg List.length h
  simp [hex] at this

theorem witness_FrmDeconInvertsFrmBuild :
    (frame [0, 255] (List.replicate 16 true)).operands.l = .seq ([0, 255].map Int.ofNat) ∧
    (frame [0, 255] (List.replicate 16 true)).operands.d = .bits (List.replicate 16 true) ∧
    [0, 255] ≠ [] ∧ (∀ id ∈ [0, 255], id ≤ 255) ∧ (List.replicate 16 true).length % 8 = 0 :=
  ⟨rfl, rfl, by decide, by decide, by decide⟩

theorem witness_FrmSplitCutsAtFlags :
    (dval (hexValue [0x7E])).operands.d = bytesValue (hex [0x7E]) ∧
    (hex [0x7E] ≠ [] ∧ (hex [0x7E]).head? = some 0x7E#8 ∧ (hex [0x7E]).getLast? = some 0x7E#8) ∧
    (hex [0x7E, 0x01]).getLast? ≠ some 0x7E#8 ∧ (hex [0x01, 0x7E]).head? ≠ some 0x7E#8 := by decide +kernel

theorem witness_FrmSplitRecoversBuiltFrames :
    Answers (.frmBuild false) (frame [0x12] []) (.bytes (hex [0x7E, 0x12, 0x12, 0x00, 0x7E])) ∧
    Answers (.frmBuild true) (frame [0x12] []) (.bytes (hex [0x7E, 0x48, 0x48, 0x00, 0x7E])) := ⟨rfl, rfl⟩

theorem witness_AnErrorChangesStatusAlone :
    exec (.bsPop 1) blank = .next (raise .insufficientBits blank) ∧
    (raise .insufficientBits blank).response = some (.err .insufficientBits) := ⟨rfl, rfl⟩

theorem witness_OkLeavesStatusAlone :
    exec .bsLen blank = .next (respond (.nat 0) blank) ∧ (respond (.nat 0) blank).response = some (.ok (.nat 0)) ∧
    Instr.bsLen ≠ .stClr := ⟨rfl, rfl, by decide⟩

theorem witness_OnlyBsLoadAndBsPopChangeBs :
    exec .stClr blank = .next (respond .unit (setStatus 0#32 blank)) ∧ Instr.stClr ≠ .bsLoad ∧
    ∀ n, Instr.stClr ≠ .bsPop n := ⟨rfl, by decide, fun _ h => by cases h⟩

theorem witness_CommandsRaiseOnlyTheirErrors :
    exec .desU (dval (.bits [])) = .next (raise .badIntegerSize (dval (.bits []))) ∧
    (raise .badIntegerSize (dval (.bits []))).response = some (.err .badIntegerSize) := ⟨rfl, rfl⟩

theorem witness_WrongOperandTypeRaisesBadOperand :
    wellTyped .revB (numbers 256 0 0) = false ∧ wellTyped .revB (numbers 255 0 0) = true ∧
    wellTyped .desU (onD (hexValue [])) = false ∧ wellTyped (.frmBuild false) { onD (.bits []) with l := .seq [-1] } = false := by
  decide +kernel

theorem witness_PureCommandsRepeat :
    touchesState .crcGen = false ∧
    (dval (hexValue [])).operands = ({ dval (hexValue []) with bs := [true], status := 0x101#32 } : State).operands ∧
    exec .crcGen (dval (hexValue [])) = .next (respond (.bytes [0#8, 0#8]) (dval (hexValue []))) ∧
    exec .crcGen { dval (hexValue []) with bs := [true], status := 0x101#32 } =
      .next (respond (.bytes [0#8, 0#8]) { dval (hexValue []) with bs := [true], status := 0x101#32 }) :=
  ⟨rfl, rfl, rfl, rfl⟩

/-- A state with the invariant, short of one bit, whose next command raises an error. -/
theorem witness_StepsKeepTheInvariant :
    Inv (issuing 0x08000001#32 idleOperands) ∧
    step (issuing 0x08000001#32 idleOperands) =
      .next { blank with status := 0x101#32, response := some (.err .insufficientBits) } :=
  ⟨⟨(by intro m h; cases h), Or.inl rfl, rfl, (by intro e h; cases h)⟩, rfl⟩

end Sys2Proof.Tests
end

/-! SUPPORT. The step on a word that decodes, and the statement of 00_scope.md about it. -/

namespace Sys2Proof.Proofs

open Machine Laws

/-- R7, R205: an offered command is taken and its word run. -/
theorem step_of_command {s : State} {c : Command} {rest : List HostEvent} (hhost : s.host = .command c :: rest) :
    step s = runCommand c.word (accept c rest s) := by
  simp only [step, advance, hhost]

/-- R185: past decode, the length check decides between the refusal and the command's delivered outcome. -/
theorem runCommand_of_decode {word : CmdWord} {i : Instr} (s : State) (hdec : decode word = .ok i) :
    runCommand word s = if operandOverMax s.params i s.operands then .refused .operandOverMaxBuf
      else deliver (exec i s) := by
  simp only [runCommand, hdec]

/-- The step on a word that decodes, with the operands and parameters it looks at named in the state before. -/
theorem step_of_decode {s : State} {c : Command} {rest : List HostEvent} {i : Instr}
    (hhost : s.host = .command c :: rest) (hdec : decode c.word = .ok i) :
    step s = if operandOverMax s.params i c.operands then .refused .operandOverMaxBuf
      else deliver (exec i (accept c rest s)) :=
  (step_of_command hhost).trans (runCommand_of_decode _ hdec)

/-- Delivering a next state refuses a result over the bound, and else idles the operand port. -/
theorem deliver_of_next (t : State) :
    deliver (.next t) = if responseOverMax t.params t.response then .refused .resultOverMaxBuf
      else .next (release t) := rfl

/-- Settles O5: `step_of_decode`, one clause for each answer of the length check, and `deliver_of_next` where the command
runs. -/
theorem stepRunsTheDecodedCommand : Obligations.StepRunsTheDecodedCommand := by
  intro s t c rest i hhost hdec
  constructor
  · intro hover
    rw [step_of_decode hhost hdec, if_pos hover]
  · intro hwithin hexec
    have hrun : exec i (accept c rest s) = .next t := hexec
    rw [step_of_decode hhost hdec, hwithin, if_neg Bool.false_ne_true, hrun, deliver_of_next, release]

end Sys2Proof.Proofs

/-! SUPPORT. Which errors a command's reply may hold, and that it reads its slots first (60_exceptions.md R181, R185). -/

namespace Sys2Proof.Proofs

open Machine Laws

/-! ## The errors a reply may hold -/

/-- The reply is a result, or an error of the list. -/
def RaisesOnly (es : List ErrorKind) (r : Reply) : Prop := ∀ e, r = .error e → e ∈ es

@[simp] theorem raisesOnly_ok (es : List ErrorKind) (v : Result) : RaisesOnly es (.ok v) := nofun

@[simp] theorem raisesOnly_error (es : List ErrorKind) (e : ErrorKind) : RaisesOnly es (.error e) ↔ e ∈ es :=
  ⟨fun h => h e rfl, fun h _ he => by cases he; exact h⟩

theorem raisesOnly_withWidth {es : List ErrorKind} {n : Nat} {r : Reply}
    (h : RaisesOnly (.badIntegerSize :: es) r) : RaisesOnly (.badIntegerSize :: es) (withWidth n r) := by
  unfold withWidth
  split
  · simp
  · exact h

theorem raisesOnly_withResolution {es : List ErrorKind} {res : Rat} {r : Reply} (hbad : .badOperand ∈ es)
    (h : RaisesOnly es r) : RaisesOnly es (withResolution res r) := by
  unfold withResolution
  split
  · simpa using hbad
  · exact h

theorem raisesOnly_revInt (n v : Nat) : RaisesOnly [.badOperand] (revInt n v) := by
  unfold revInt; split_ifs <;> simp

theorem raisesOnly_putUnsigned (n : Nat) (c : Bool) (v : Int) :
    RaisesOnly [.badIntegerSize, .unexpectedNegative, .badOperand] (putUnsigned n c v) := by
  unfold putUnsigned; split_ifs <;> simp

theorem raisesOnly_putSigned (n : Nat) (c : Bool) (v : Int) :
    RaisesOnly [.badIntegerSize, .badOperand] (putSigned n c v) := by
  unfold putSigned; split_ifs <;> simp

theorem raisesOnly_boolOfBits (d : Bits) : RaisesOnly [.badIntegerSize, .badOperand] (boolOfBits d) := by
  unfold boolOfBits; split <;> simp

theorem raisesOnly_putText (n : Nat) (d : Bytes) : RaisesOnly [.badOperand] (putText n d) := by
  unfold putText; split_ifs <;> simp

/-- The sign check of SER.ENUM is not among them: a member is not negative (R117). -/
theorem raisesOnly_putEnum (p : Config.Params) (k n : Nat) (v : Int) :
    RaisesOnly [.badIntegerSize, .unknownEnumValue, .badOperand] (putEnum p k n v) := by
  unfold putEnum
  by_cases hmem : isMember p k v = true
  · have hnonneg : ¬ v < 0 := not_lt.2 ((isMember_iff p k v).1 hmem).1
    rw [if_pos hmem, if_neg hnonneg]
    split_ifs <;> simp
  · simp [hmem]

theorem raisesOnly_unescReply (d : Bytes) : RaisesOnly [.invalidFrame, .badOperand] (unescReply d) := by
  unfold unescReply; split <;> simp

theorem raisesOnly_buildFrame (inv : Bool) (ids : List Nat) (p : Bits) :
    RaisesOnly [.badOperand] (buildFrame inv ids p) := by
  unfold buildFrame; split_ifs <;> simp

theorem raisesOnly_splitRegion (m : Nat) (u : Bytes) :
    RaisesOnly [.missingFlagBytes, .invalidFrame, .invalidCrc, .badOperand] (splitRegion m u) := by
  unfold splitRegion; split_ifs <;> simp

theorem raisesOnly_deconFrame (inv : Bool) (m : Nat) (d : Bytes) :
    RaisesOnly [.missingFlagBytes, .invalidFrame, .invalidCrc, .badOperand] (deconFrame inv m d) := by
  unfold deconFrame
  split
  · simp
  · split
    · simp
    · split
      · simp
      · exact raisesOnly_splitRegion _ _

theorem raisesOnly_splitFrames (d : Bytes) : RaisesOnly [.missingFlagBytes, .badOperand] (splitFrames d) := by
  unfold splitFrames; split_ifs <;> simp

/-! ## The slots come first -/

/-- The reply of a command that reads the slots `sig` before anything else: BadOperand when one of them does not hold its
type, and else a reply with `P` (R185 step 3). -/
def ReadsThen (ops : Operands) (P : Reply → Prop) (sig : List (Slot × SlotType)) (r : Reply) : Prop :=
  ((sig.all fun p => hasType p.2 (slotValue ops p.1)) = false → r = .error .badOperand) ∧
  ((sig.all fun p => hasType p.2 (slotValue ops p.1)) = true → P r)

section

variable {ops : Operands} {P : Reply → Prop} {sig : List (Slot × SlotType)}

theorem readsThen_nil {r : Reply} (h : P r) : ReadsThen ops P [] r := ⟨nofun, fun _ => h⟩

/-- One more slot in front, `o` being what reading it at its type gives. -/
theorem readsThen_cons {α : Type} (slot : Slot) (t : SlotType) (o : Option α) {k : α → Reply}
    (ht : hasType t (slotValue ops slot) = o.isSome) (hk : ∀ x, ReadsThen ops P sig (k x)) :
    ReadsThen ops P ((slot, t) :: sig) ((o.map k).getD (.error .badOperand)) := by
  cases o with
  | none => simp [ReadsThen, ht]
  | some x => simpa [ReadsThen, ht] using hk x

theorem readsThen_withInt (slot : Slot) {k : Int → Reply} (hk : ∀ x, ReadsThen ops P sig (k x)) :
    ReadsThen ops P ((slot, .int) :: sig) (withInt (slotValue ops slot) k) := by
  rw [withInt_eq]; exact readsThen_cons slot .int _ rfl hk

theorem readsThen_withNat (slot : Slot) {k : Nat → Reply} (hk : ∀ x, ReadsThen ops P sig (k x)) :
    ReadsThen ops P ((slot, .nat) :: sig) (withNat (slotValue ops slot) k) := by
  rw [withNat_eq]; exact readsThen_cons slot .nat _ rfl hk

theorem readsThen_withByte (slot : Slot) {k : Byte → Reply} (hk : ∀ x, ReadsThen ops P sig (k x)) :
    ReadsThen ops P ((slot, .byte) :: sig) (withByte (slotValue ops slot) k) := by
  rw [withByte_eq]; exact readsThen_cons slot .byte _ rfl hk

theorem readsThen_withRat (slot : Slot) {k : Rat → Reply} (hk : ∀ x, ReadsThen ops P sig (k x)) :
    ReadsThen ops P ((slot, .rat) :: sig) (withRat (slotValue ops slot) k) := by
  rw [withRat_eq]; exact readsThen_cons slot .rat _ rfl hk

theorem readsThen_withBits (slot : Slot) {k : Bits → Reply} (hk : ∀ x, ReadsThen ops P sig (k x)) :
    ReadsThen ops P ((slot, .bits) :: sig) (withBits (slotValue ops slot) k) := by
  rw [withBits_eq]; exact readsThen_cons slot .bits _ rfl hk

theorem readsThen_withBytes (slot : Slot) {k : Bytes → Reply} (hk : ∀ x, ReadsThen ops P sig (k x)) :
    ReadsThen ops P ((slot, .bytes) :: sig) (withBytes (slotValue ops slot) k) := by
  rw [withBytes_eq]; exact readsThen_cons slot .bytes _ rfl hk

theorem readsThen_withNats (slot : Slot) {k : List Nat → Reply} (hk : ∀ x, ReadsThen ops P sig (k x)) :
    ReadsThen ops P ((slot, .natList) :: sig) (withNats (slotValue ops slot) k) := by
  rw [withNats_eq]; exact readsThen_cons slot .natList _ rfl hk

end

/-! ## Every command -/

/-- The command ends with the reply, and where that is an error it has the effect of `raise` alone (R184). -/
def Replies (i : Instr) (s : State) (r : Reply) : Prop :=
  match r with
  | .ok v => ∃ t, exec i s = .next t ∧ t.response = some (.ok v)
  | .error e => exec i s = .next (raise e s)

theorem replies_of_answer {i : Instr} {s : State} {r : Reply} (h : exec i s = answer s r) : Replies i s r := by
  cases r with
  | ok v => exact ⟨_, h, rfl⟩
  | error e => exact h

/-- The reply of BS.LOAD once op.D is read (R80). -/
def loadReply (p : Config.Params) (d : Bits) : Reply :=
  if overCapacity p d then .error .badOperand else .ok .unit

theorem replies_bsLoad (s : State) : Replies .bsLoad s (withBits s.operands.d (loadReply s.params)) := by
  cases hread : readBits s.operands.d with
  | none => simp [Replies, withBits, exec, execBsLoad, hread]
  | some d => cases hcap : overCapacity s.params d <;> simp [Replies, withBits, loadReply, exec, execBsLoad, hread, hcap]

/-- The reply of BS.POP (R81). -/
def popReply (n : Nat) (bs : Bits) : Reply :=
  if bs.length < n then .error .insufficientBits else .ok (.bits (bs.take n))

theorem replies_bsPop (n : Nat) (s : State) : Replies (.bsPop n) s (popReply n s.bs) := by
  by_cases hlen : s.bs.length < n <;> simp [Replies, popReply, exec, execBsPop, hlen]

/-- Every command replies; it reads the slots of its signature before anything else, and then raises no errors but those of
R181. -/
theorem exec_replies (i : Instr) (s : State) :
    ∃ r, Replies i s r ∧ ReadsThen s.operands (RaisesOnly (mayRaise i)) (signature i) r := by
  cases i
  case bsLoad =>
    refine ⟨_, replies_bsLoad s, readsThen_withBits .d fun d => readsThen_nil ?_⟩
    unfold loadReply; split_ifs <;> simp [mayRaise]
  case bsPop n =>
    refine ⟨_, replies_bsPop n s, readsThen_nil ?_⟩
    unfold popReply; split_ifs <;> simp [mayRaise]
  case stClr => exact ⟨.ok .unit, ⟨_, rfl, rfl⟩, readsThen_nil (raisesOnly_ok _ _)⟩
  all_goals refine ⟨_, replies_of_answer rfl, ?_⟩
  case bsLen | crcTab | stRd => exact readsThen_nil (raisesOnly_ok _ _)
  case bsEnd => refine readsThen_nil ?_; split_ifs <;> simp [mayRaise]
  case revB => exact readsThen_withByte .a fun _ => readsThen_nil (raisesOnly_ok _ _)
  case revBs | esc | crcGen => exact readsThen_withBytes .d fun _ => readsThen_nil (raisesOnly_ok _ _)
  case revI n => exact readsThen_withNat .a fun v => readsThen_nil (raisesOnly_revInt n v)
  case serU c n =>
    exact readsThen_withInt .a fun v => readsThen_nil (raisesOnly_withWidth (raisesOnly_putUnsigned n c v))
  case serS c n =>
    exact readsThen_withInt .a fun v => readsThen_nil (raisesOnly_withWidth (raisesOnly_putSigned n c v))
  case desU | desS =>
    exact readsThen_withBits .d fun _ => readsThen_nil (raisesOnly_withWidth (raisesOnly_ok _ _))
  case serRu c n =>
    exact readsThen_withRat .a fun _ => readsThen_withRat .b fun _ => readsThen_nil
      (raisesOnly_withWidth (raisesOnly_withResolution (by simp) (raisesOnly_putUnsigned n c _)))
  case serRs c n =>
    exact readsThen_withRat .a fun _ => readsThen_withRat .b fun _ => readsThen_nil
      (raisesOnly_withWidth (raisesOnly_withResolution (by simp) (raisesOnly_putSigned n c _)))
  case serRo c n =>
    exact readsThen_withRat .a fun _ => readsThen_withRat .b fun _ => readsThen_withRat .c fun _ => readsThen_nil
      (raisesOnly_withWidth (raisesOnly_withResolution (by simp) (raisesOnly_putUnsigned n c _)))
  case desRu | desRs =>
    exact readsThen_withBits .d fun _ => readsThen_withRat .b fun _ => readsThen_nil
      (raisesOnly_withWidth (raisesOnly_withResolution (by simp) (raisesOnly_ok _ _)))
  case desRo =>
    exact readsThen_withBits .d fun _ => readsThen_withRat .b fun _ => readsThen_withRat .c fun _ => readsThen_nil
      (raisesOnly_withWidth (raisesOnly_withResolution (by simp) (raisesOnly_ok _ _)))
  case serBool =>
    refine readsThen_withInt .a fun v => readsThen_nil ?_
    split_ifs <;> simp [mayRaise]
  case desBool => exact readsThen_withBits .d fun d => readsThen_nil (raisesOnly_boolOfBits d)
  case serTxt n => exact readsThen_withBytes .d fun d => readsThen_nil (raisesOnly_putText n d)
  case desTxt =>
    refine readsThen_withBits .d fun d => readsThen_nil ?_
    split_ifs <;> simp [mayRaise]
  case serEnum k n =>
    exact readsThen_withInt .a fun v => readsThen_nil (raisesOnly_withWidth (raisesOnly_putEnum s.params k n v))
  case desEnum k =>
    refine readsThen_withBits .d fun d => readsThen_nil (raisesOnly_withWidth ?_)
    split_ifs <;> simp
  case unesc => exact readsThen_withBytes .d fun d => readsThen_nil (raisesOnly_unescReply d)
  case crcChk | crcChks =>
    refine readsThen_withBytes .d fun d => readsThen_withBytes .e fun c => readsThen_nil ?_
    split_ifs <;> simp [mayRaise]
  case frmBuild inv =>
    exact readsThen_withNats .l fun ids => readsThen_withBits .d fun p => readsThen_nil (raisesOnly_buildFrame inv ids p)
  case frmDecon inv m => exact readsThen_withBytes .d fun d => readsThen_nil (raisesOnly_deconFrame inv m d)
  case frmSplit => exact readsThen_withBytes .d fun d => readsThen_nil (raisesOnly_splitFrames d)

/-- A command that can find an operand of the wrong type has BadOperand in its row of R181. -/
theorem badOperand_mem_mayRaise {i : Instr} {ops : Operands} (h : wellTyped i ops = false) :
    .badOperand ∈ mayRaise i := by
  have hreads : signature i ≠ [] := by
    intro hnil
    simp [wellTyped, hnil] at h
  cases i <;> simp [mayRaise, signature] at hreads ⊢

/-- R181: the error a command answers is one its row names. -/
theorem exec_error_mem_mayRaise {i : Instr} {s t : State} {e : ErrorKind} (hexec : exec i s = .next t)
    (herr : t.response = some (.err e)) : e ∈ mayRaise i := by
  obtain ⟨r, hreply, hbad, hrule⟩ := exec_replies i s
  cases r with
  | ok v =>
    obtain ⟨u, hu, hv⟩ := hreply
    obtain rfl : t = u := Host.Outcome.next.inj (hexec.symm.trans hu)
    simp [hv] at herr
  | error e' =>
    have ht : t = raise e' s := Host.Outcome.next.inj (hexec.symm.trans hreply)
    obtain rfl : e' = e := by simpa [ht] using herr
    cases htyped : wellTyped i s.operands with
    | false =>
      obtain rfl : e' = .badOperand := by simpa using hbad htyped
      exact badOperand_mem_mayRaise htyped
    | true => exact hrule htyped e' rfl

/-- 93 I5: codes 5, 8 and 9 stand in no command's row of R181. -/
theorem blockRaises_of_mem_mayRaise {i : Instr} {e : ErrorKind} (h : e ∈ mayRaise i) : blockRaises e = true := by
  cases e with
  | uplinkDataWrongSize | invalidCallsign | unknownMessageId => cases i <;> simp [mayRaise] at h
  | _ => rfl

end Sys2Proof.Proofs

/-! SUPPORT. What every command and every step keeps, and the statements of 10_state.md about it. -/

namespace Sys2Proof.Proofs

open Machine Laws

/-- The state a command ends in: `exec_cases` read backwards from the outcome. -/
theorem exec_next_cases {i : Instr} {s t : State} (hexec : exec i s = .next t) :
    (i ≠ .stClr ∧ ∃ r, t = settle s r) ∨
    (i = .bsLoad ∧ ∃ d, overCapacity s.params d = false ∧ t = respond .unit (setBs d s)) ∨
    (∃ n, i = .bsPop n ∧ t = respond (.bits (s.bs.take n)) (setBs (s.bs.drop n) s)) ∨
    (i = .stClr ∧ t = respond .unit (setStatus 0#32 s)) := by
  have hnext {u : State} (h : exec i s = .next u) : t = u := Host.Outcome.next.inj (hexec.symm.trans h)
  obtain ⟨hne, r, hr⟩ | ⟨hi, d, -, hcap, hload⟩ | ⟨n, hi, -, hpop⟩ | ⟨hi, hclr⟩ := exec_cases i s
  · exact .inl ⟨hne, r, hnext hr⟩
  · exact .inr (.inl ⟨hi, d, hcap, hnext hload⟩)
  · exact .inr (.inr (.inl ⟨n, hi, hnext hpop⟩))
  · exact .inr (.inr (.inr ⟨hi, hnext hclr⟩))

/-! ## The invariant -/

theorem inv_resetState (rest : List HostEvent) (s : State) : Inv (resetState rest s) where
  bsFits _ _ := Nat.zero_le _
  status := .inl rfl
  portIdle := rfl
  recorded := nofun

/-- A command that ends in a result leaves the invariant when BS fits and STATUS is legal. -/
theorem inv_release_respond {s : State} (v : Result) (hbs : ∀ m, s.params.maxBsBits = some m → s.bs.length ≤ m)
    (hstatus : statusLegal s.status) : Inv (release (respond v s)) where
  bsFits := hbs
  status := hstatus
  portIdle := rfl
  recorded := nofun

/-- A command that ends in an error the block raises leaves the invariant when BS fits, whatever STATUS was. -/
theorem inv_release_raise {s : State} {e : ErrorKind} (hbs : ∀ m, s.params.maxBsBits = some m → s.bs.length ≤ m)
    (he : blockRaises e = true) : Inv (release (raise e s)) where
  bsFits := hbs
  status := .inr ⟨e, he, rfl⟩
  portIdle := rfl
  recorded e' h := by
    obtain rfl : e = e' := by simpa using h
    exact ⟨he, rfl⟩

theorem length_le_of_overCapacity {p : Config.Params} {d : Bits} (h : overCapacity p d = false) (m : Nat)
    (hm : p.maxBsBits = some m) : d.length ≤ m := by
  simpa [overCapacity, hm] using h

/-- A command that runs to its end leaves the invariant, whatever operands it was given. -/
theorem inv_release_of_exec {i : Instr} {s t : State} (hbs : ∀ m, s.params.maxBsBits = some m → s.bs.length ≤ m)
    (hstatus : statusLegal s.status) (hexec : exec i s = .next t) : Inv (release t) := by
  obtain ⟨-, r, rfl⟩ | ⟨-, d, hcap, rfl⟩ | ⟨n, -, rfl⟩ | ⟨-, rfl⟩ := exec_next_cases hexec
  · cases r with
    | ok v => exact inv_release_respond v hbs hstatus
    | error e => exact inv_release_raise hbs (blockRaises_of_mem_mayRaise (exec_error_mem_mayRaise hexec rfl))
  · exact inv_release_respond _ (length_le_of_overCapacity hcap) hstatus
  · have hdrop : (s.bs.drop n).length ≤ s.bs.length := by simp
    exact inv_release_respond _ (fun m hm => hdrop.trans (hbs m hm)) hstatus
  · exact inv_release_respond _ hbs (.inl rfl)

/-- Settles O59: by the cases of `step_cases`; taking a command changes neither BS nor STATUS, so `inv_release_of_exec`
applies to it. -/
theorem stepsKeepTheInvariant : Obligations.StepsKeepTheInvariant := by
  intro s t hinv hstep
  obtain ⟨-, rfl⟩ | ⟨_, rest, -, rfl⟩ | ⟨c, rest, _, -, -, rfl⟩ | ⟨c, rest, i, u, -, -, -, hexec, -, rfl⟩ :=
    step_cases s t hstep
  · exact hinv
  · exact inv_resetState rest s
  · exact inv_release_raise hinv.bsFits rfl
  · exact inv_release_of_exec (s := accept c rest s) hinv.bsFits hinv.status hexec

/-! ## What a command leaves unchanged -/

/-- Settles O52: by `exec_cases`. -/
theorem everyCommandAnswersOnce : Obligations.EveryCommandAnswersOnce := by
  intro i s
  obtain ⟨-, r, hr⟩ | ⟨-, d, -, -, hload⟩ | ⟨n, -, -, hpop⟩ | ⟨-, hclr⟩ := exec_cases i s
  · cases r <;> exact ⟨_, _, hr, rfl⟩
  · exact ⟨_, _, hload, rfl⟩
  · exact ⟨_, _, hpop, rfl⟩
  · exact ⟨_, _, hclr, rfl⟩

/-- Settles O54: of the effects of `exec_next_cases`, only `raise` and ST.CLR's write STATUS. -/
theorem okLeavesStatusAlone : Obligations.OkLeavesStatusAlone := by
  intro i s t v hexec hok hne
  obtain ⟨-, r, rfl⟩ | ⟨-, d, -, rfl⟩ | ⟨n, -, rfl⟩ | ⟨hclr, -⟩ := exec_next_cases hexec
  · cases r with
    | ok v => rfl
    | error e => simp at hok
  · rfl
  · rfl
  · exact absurd hclr hne

/-- Settles O55: of the effects of `exec_next_cases`, only those of BS.LOAD and BS.POP write BS. -/
theorem onlyBsLoadAndBsPopChangeBs : Obligations.OnlyBsLoadAndBsPopChangeBs := by
  intro i s t hexec hload hpop
  obtain ⟨-, r, rfl⟩ | ⟨hi, -⟩ | ⟨n, hi, -⟩ | ⟨-, rfl⟩ := exec_next_cases hexec
  · exact (settle_frame s r).1
  · exact absurd hi hload
  · exact absurd hi (hpop n)
  · rfl

/-- Settles O57: by `exec_replies`, the slots of the signature are read before anything else. -/
theorem wrongOperandTypeRaisesBadOperand : Obligations.WrongOperandTypeRaisesBadOperand := by
  intro i s hwrong
  obtain ⟨r, hreply, hbad, -⟩ := exec_replies i s
  obtain rfl : r = .error .badOperand := hbad hwrong
  exact hreply

/-! ## Reset -/

theorem crctListing_eq_crcTable :
    ∀ i < crctListing.length, crctListing[i]? = some (crcTable (BitVec.ofNat 8 i)).toNat := by decide +kernel

/-- R144, R145: CRC.TAB answers the entry the spec lists, in every state. -/
theorem answers_crcTab {i v : Nat} (h : crctListing[i]? = some v) (s : State) : Answers (.crcTab i) s (.nat v) := by
  obtain ⟨hi, -⟩ := List.getElem?_eq_some_iff.1 h
  obtain rfl : (crcTable (BitVec.ofNat 8 i)).toNat = v := by simpa [crctListing_eq_crcTable i hi] using h
  rfl

/-- Without a length bound, an offered command ends in a response: no word and no operand is refused. -/
theorem step_responds_of_unbounded {s : State} {c : Command} {rest : List HostEvent}
    (hhost : s.host = .command c :: rest) (hunbounded : s.params.maxBufBytes = none) :
    ∃ t r, step s = .next t ∧ t.response = some r := by
  cases hdec : decode c.word with
  | error _ =>
    refine ⟨release (raise .illegalCommand (accept c rest s)), _, ?_, rfl⟩
    simp [step_of_command hhost, runCommand, hdec, deliver_of_next]
  | ok i =>
    obtain ⟨t, r, hexec, hframe⟩ := everyCommandAnswersOnce i (accept c rest s)
    have hresponse : t.response = some r := by rw [hframe]
    have hparams : t.params = s.params := by rw [hframe]; rfl
    have hwithin : operandOverMax s.params i c.operands = false := by simp [operandOverMax, hunbounded]
    refine ⟨release t, r, ?_, hresponse⟩
    rw [step_of_decode hhost hdec, hwithin, if_neg Bool.false_ne_true, hexec, deliver_of_next, hparams,
      responseOverMax_unbounded _ _ hunbounded, if_neg Bool.false_ne_true]

/-- Settles O8: the reset values by evaluation, CRCT by `answers_crcTab`, the command port by
`step_responds_of_unbounded`. -/
theorem resetValues : Obligations.ResetValues :=
  ⟨rfl, rfl, rfl, rfl, rfl, fun _ _ h => answers_crcTab h _, fun _ _ hp => step_responds_of_unbounded rfl hp⟩

/-- Settles O60: the state after reset is what the reset input makes of itself. -/
theorem resetHasTheInvariant : Obligations.ResetHasTheInvariant := inv_resetState [] State.reset

end Sys2Proof.Proofs

/-! SUPPORT. The length bound on operands, the order of commands and their purity, and the statements of 20_memory.md about
them. -/

namespace Sys2Proof.Proofs

open Machine Laws

/-! ## Operands over the bound -/

/-- A delivered command is never refused for its operands: it runs to a next state, which only its result can refuse. -/
theorem deliver_exec_ne_operandOverMaxBuf (i : Instr) (s : State) :
    deliver (exec i s) ≠ .refused .operandOverMaxBuf := by
  obtain ⟨t, _, hexec, -⟩ := everyCommandAnswersOnce i s
  rw [hexec, deliver_of_next]
  split_ifs <;> simp

/-- R185 step 2: the length check alone decides about this refusal. -/
theorem step_refuses_operand_iff {s : State} {c : Command} {rest : List HostEvent} {i : Instr}
    (hhost : s.host = .command c :: rest) (hdec : decode c.word = .ok i) :
    step s = .refused .operandOverMaxBuf ↔ operandOverMax s.params i c.operands = true := by
  rw [step_of_decode hhost hdec]
  split_ifs with hover
  · exact iff_of_true rfl hover
  · exact iff_of_false (deliver_exec_ne_operandOverMaxBuf _ _) hover

/-- On a slot of the signature, "not read as a list of `Nat`" means "not op.L" (log 5). -/
theorem overOnSlot_signature_iff {i : Instr} {x : Slot × SlotType} (hx : x ∈ signature i) (m : Nat) (v : Value) :
    overOnSlot m x.2 v = true ↔
      (∃ d, v = .bits d ∧ 8 * m < d.length) ∨ (x.1 ≠ .l ∧ ∃ xs, v = .seq xs ∧ m < xs.length) := by
  rw [overOnSlot_iff, Ne, signature_natList i x hx]

/-- Settles O6: `step_refuses_operand_iff`, with the length check said slot by slot. -/
theorem operandOverTheBoundIsRefused : Obligations.OperandOverTheBoundIsRefused := by
  intro s c rest i hhost hdec
  rw [step_refuses_operand_iff hhost hdec, operandOverMax_iff]
  refine exists_congr fun m => and_congr_right fun _ => ?_
  constructor
  · rintro ⟨x, hx, hover⟩
    exact ⟨x.1, List.mem_map_of_mem hx, (overOnSlot_signature_iff hx m _).1 hover⟩
  · rintro ⟨_, hslot, hover⟩
    obtain ⟨x, hx, rfl⟩ := List.mem_map.1 hslot
    exact ⟨x, hx, (overOnSlot_signature_iff hx m _).2 hover⟩

/-! ## BS.POP after BS.LOAD -/

/-- The step of a command whose operands and result are within the bound. -/
theorem step_of_exec {s t : State} {c : Command} {rest : List HostEvent} {i : Instr}
    (hhost : s.host = .command c :: rest) (hdec : decode c.word = .ok i)
    (hoperands : operandOverMax s.params i c.operands = false) (hexec : exec i (accept c rest s) = .next t)
    (hresult : responseOverMax t.params t.response = false) : step s = .next (release t) := by
  rw [step_of_decode hhost hdec, hoperands, if_neg Bool.false_ne_true, hexec, deliver_of_next, hresult,
    if_neg Bool.false_ne_true]

/-- When a result is over the bound (log 6). -/
theorem responseOverMax_ok_iff (p : Config.Params) (v : Result) :
    responseOverMax p (some (.ok v)) = true ↔ ∃ m, p.maxBufBytes = some m ∧ resultLongerThan m v = true := by
  unfold responseOverMax
  split <;> simp_all

theorem responseOverMax_unit (p : Config.Params) : responseOverMax p (some (.ok .unit)) = false := by
  simp [← Bool.not_eq_true, responseOverMax_ok_iff, resultLongerThan]

theorem responseOverMax_bits_eq_false {p : Config.Params} {d : Bits}
    (h : ∀ m, p.maxBufBytes = some m → d.length ≤ 8 * m) : responseOverMax p (some (.ok (.bits d))) = false := by
  simpa [← Bool.not_eq_true, responseOverMax_ok_iff, resultLongerThan] using h

/-- The length check passes a command that reads no slot. -/
theorem operandOverMax_eq_false_of_reads_nothing {i : Instr} (h : signature i = []) (p : Config.Params)
    (ops : Operands) : operandOverMax p i ops = false := by
  simp [← Bool.not_eq_true, operandOverMax_iff, h]

/-- The length check passes BS.LOAD on a bit string within the bound (log 5). -/
theorem operandOverMax_bsLoad_eq_false {p : Config.Params} {ops : Operands} {d : Bits} (hd : ops.d = .bits d)
    (h : ∀ m, p.maxBufBytes = some m → d.length ≤ 8 * m) : operandOverMax p .bsLoad ops = false := by
  simpa [← Bool.not_eq_true, operandOverMax_iff, overOnSlot_iff, signature, slotValue, hd] using h

theorem overCapacity_eq_false {p : Config.Params} {d : Bits} (h : ∀ m, p.maxBsBits = some m → d.length ≤ m) :
    overCapacity p d = false := by
  unfold overCapacity
  split
  · rfl
  · next m hm => exact decide_eq_false (not_lt.2 (h m hm))

/-- R80: BS.LOAD within the capacity replaces BS. -/
theorem exec_bsLoad {s : State} {d : Bits} (hd : s.operands.d = .bits d) (hcap : overCapacity s.params d = false) :
    exec .bsLoad s = .next (respond .unit (setBs d s)) := by
  simp [exec, execBsLoad, hd, hcap]

/-- R81: BS.POP of no more bits than BS holds takes them from the front. -/
theorem exec_bsPop {s : State} {n : Nat} (hn : n ≤ s.bs.length) :
    exec (.bsPop n) s = .next (respond (.bits (s.bs.take n)) (setBs (s.bs.drop n) s)) := by
  simp [exec, execBsPop, not_lt.2 hn]

/-- R62: the word of BS.LOAD. -/
theorem decode_bsLoad : decode 0x04000000#32 = .ok .bsLoad := rfl

/-- R62: the words of BS.POP. -/
theorem decode_bsPop {n : Nat} (hn : n < 65536) : decode (BitVec.ofNat 32 (0x08000000 + n)) = .ok (.bsPop n) :=
  decode_imm 0x02 .bsPop (by decide) (by decide) n hn rfl

/-- The step of a BS.LOAD within both bounds. -/
theorem step_bsLoad {s : State} {ops : Operands} {d : Bits} {rest : List HostEvent}
    (hhost : s.host = .command ⟨0x04000000#32, ops⟩ :: rest) (hd : ops.d = .bits d)
    (hbuf : ∀ m, s.params.maxBufBytes = some m → d.length ≤ 8 * m)
    (hcap : ∀ m, s.params.maxBsBits = some m → d.length ≤ m) :
    step s = .next
      { s with bs := d, operands := idleOperands, response := some (.ok .unit), host := rest } :=
  step_of_exec hhost decode_bsLoad (operandOverMax_bsLoad_eq_false hd hbuf)
    (exec_bsLoad hd (overCapacity_eq_false hcap)) (responseOverMax_unit _)

/-- The step of a BS.POP that BS can serve, its result within the bound. -/
theorem step_bsPop {s : State} {ops : Operands} {n : Nat} {rest : List HostEvent}
    (hhost : s.host = .command ⟨BitVec.ofNat 32 (0x08000000 + n), ops⟩ :: rest) (hword : n < 65536)
    (hn : n ≤ s.bs.length) (hbuf : ∀ m, s.params.maxBufBytes = some m → (s.bs.take n).length ≤ 8 * m) :
    step s = .next
      { s with
        bs := s.bs.drop n, operands := idleOperands, response := some (.ok (.bits (s.bs.take n))), host := rest } :=
  step_of_exec hhost (decode_bsPop hword) (operandOverMax_eq_false_of_reads_nothing rfl _ _) (exec_bsPop hn)
    (responseOverMax_bits_eq_false hbuf)

/-- Settles O13: `step_bsLoad`, then `step_bsPop` in the state it leaves; the popped bits are no longer than the loaded ones,
so they are within the bound too. -/
theorem popAfterLoadSeesTheLoadedBits : Obligations.PopAfterLoadSeesTheLoadedBits := by
  intro s ops ops' d n rest hhost hd hn hword hbuf hcap
  have htake : ∀ m, s.params.maxBufBytes = some m → (d.take n).length ≤ 8 * m := fun m hm =>
    (List.length_take_le' n d).trans (hbuf m hm)
  exact ⟨_, step_bsLoad hhost hd hbuf hcap, rfl, step_bsPop rfl hword hn htake⟩

/-! ## Pure commands -/

/-- Noninterference (R49): a pure command's arm computes its reply from the operands and the parameters, so two states that
agree on these get one reply. -/
theorem exec_same_reply_of_pure {i : Instr} {s s' : State} (hpure : touchesState i = false)
    (hoperands : s.operands = s'.operands) (hparams : s.params = s'.params) :
    ∃ r, exec i s = answer s r ∧ exec i s' = answer s' r := by
  obtain ⟨bs, status, operands, response, params, host⟩ := s
  obtain ⟨bs', status', operands', response', params', host'⟩ := s'
  obtain rfl : operands = operands' := hoperands
  obtain rfl : params = params' := hparams
  cases i
  case bsLoad | bsPop | bsLen | bsEnd | stRd | stClr => cases hpure
  all_goals exact ⟨_, rfl, rfl⟩

/-- A settled reply's response does not depend on the state. -/
theorem settle_response_eq (s s' : State) (r : Reply) : (settle s r).response = (settle s' r).response := by
  cases r <;> rfl

/-- Settles O58: by `exec_same_reply_of_pure`. -/
theorem pureCommandsRepeat : Obligations.PureCommandsRepeat := by
  intro i s s' t t' hpure hoperands hparams hexec hexec'
  obtain ⟨r, hr, hr'⟩ := exec_same_reply_of_pure hpure hoperands hparams
  obtain rfl : t = settle s r := Host.Outcome.next.inj (hexec.symm.trans hr)
  obtain rfl : t' = settle s' r := Host.Outcome.next.inj (hexec'.symm.trans hr')
  exact settle_response_eq s s' r

end Sys2Proof.Proofs

/-! SUPPORT. A command word is the command its fields say, and the statements of 30_encoding.md. -/

namespace Sys2Proof.Proofs

open Machine Laws

/-! ## What the fields of a word say -/

/-- The values a command of the row may carry in F, K and W: a field the row does not use is 0, and the index of CRC.TAB is a
byte (R65 (c) to (f)). -/
structure Admits (row : Row) (opc : Nat) (f : Bool) (k w : Nat) : Prop where
  flag : row.usesF = false → f = false
  table : row.usesK = false → k = 0
  imm : row.usesW = false → w = 0
  index : opc = 0x22 → w < 256

/-- The fields say the command: R62 has a row for them that admits them and gives it. -/
def Says (i : Instr) (opc : Nat) (f : Bool) (k w : Nat) : Prop :=
  ∃ row, rowOf opc f = some row ∧ Admits row opc f k w ∧ row.command f k w = i

theorem div_256_ne_zero_iff (w : Nat) : w / 256 ≠ 0 ↔ ¬ w < 256 := by omega

/-- The checks of `decode` on a row, negated one by one, are what `Admits` asks. -/
theorem admits_iff (row : Row) (opc : Nat) (f : Bool) (k w : Nat) :
    Admits row opc f k w ↔
      ¬ (!row.usesF && f) = true ∧ ¬ (!row.usesK && k != 0) = true ∧ ¬ (!row.usesW && w != 0) = true ∧
        ¬ (opc == 0x22 && w / 256 != 0) = true := by
  constructor
  · rintro ⟨hf, hk, hw, hi⟩
    simpa [div_256_ne_zero_iff] using ⟨hf, hk, hw, hi⟩
  · intro h
    obtain ⟨hf, hk, hw, hi⟩ := by simpa [div_256_ne_zero_iff] using h
    exact ⟨hf, hk, hw, hi⟩

/-- R65, R67: a word decodes to the command its fields say, and Z is 0. -/
theorem decode_eq_ok_iff (word : CmdWord) (i : Instr) :
    decode word = .ok i ↔
      zeroOf word = false ∧ Says i (opcOf word) (flagOf word) (tableOf word) (immOf word) := by
  unfold decode Says
  cases hz : zeroOf word
  case true => simp
  case false =>
    cases hrow : rowOf (opcOf word) (flagOf word) with
    | none => simp
    | some row =>
      simp only [Option.some.injEq, exists_eq_left', admits_iff]
      split_ifs <;> simp_all

/-- A word packed from fields in their ranges decodes to the command they say. -/
theorem decode_packWord_of_says {i : Instr} {opc : Nat} {f : Bool} {k w : Nat} (ho : opc < 64) (hk : k < 256)
    (hw : w < 65536) (h : Says i opc f k w) : decode (packWord opc f k w) = .ok i := by
  rw [decode_eq_ok_iff, zeroOf_packWord opc f k w ho hk hw, opcOf_packWord opc f k w ho hk hw,
    flagOf_packWord opc f k w ho hk hw, tableOf_packWord opc f k w ho hk hw, immOf_packWord opc f k w ho hk hw]
  exact ⟨rfl, h⟩

theorem tableOf_lt (word : CmdWord) : tableOf word < 256 := Nat.mod_lt _ (by decide)

theorem immOf_lt (word : CmdWord) : immOf word < 65536 := Nat.mod_lt _ (by decide)

theorem opcOf_lt (word : CmdWord) : opcOf word < 64 := Nat.div_lt_of_lt_mul word.isLt

/-! ## Decoding an encoding -/

theorem says_plain {opc : Nat} {i : Instr} (hrow : rowOf opc false = some (plainRow i)) : Says i opc false 0 0 :=
  ⟨_, hrow, ⟨fun _ => rfl, fun _ => rfl, fun _ => rfl, fun _ => by decide⟩, rfl⟩

theorem says_imm {opc : Nat} {mk : Nat → Instr} (w : Nat) (hrow : rowOf opc false = some (immRow mk))
    (hindex : opc = 0x22 → w < 256) : Says (mk w) opc false 0 w :=
  ⟨_, hrow, ⟨fun _ => rfl, fun _ => rfl, nofun, hindex⟩, rfl⟩

theorem says_flagImm {opc : Nat} {mk : Bool → Nat → Instr} (f : Bool) (w : Nat)
    (hrow : rowOf opc f = some (flagImmRow mk)) (hne : opc ≠ 0x22) : Says (mk f w) opc f 0 w :=
  ⟨_, hrow, ⟨nofun, fun _ => rfl, nofun, fun h => absurd h hne⟩, rfl⟩

/-- Settles O1: every arm of `encode` packs fields in their ranges, which say the command by the row of its shape in R62. -/
theorem decodeEncodeRoundTrip : Obligations.DecodeEncodeRoundTrip := by
  intro i hwf
  cases i
  case bsPop n | revI n | serTxt n =>
    exact decode_packWord_of_says (by decide) (by decide) (of_decide_eq_true hwf) (says_imm n rfl nofun)
  case crcTab n =>
    have hn : n < 256 := of_decide_eq_true hwf
    exact decode_packWord_of_says (by decide) (by decide) (hn.trans (by decide)) (says_imm n rfl fun _ => hn)
  case serU f n | serS f n | serRu f n | serRs f n | serRo f n | frmDecon f n =>
    exact decode_packWord_of_says (by decide) (by decide) (of_decide_eq_true hwf) (says_flagImm f n rfl nofun)
  case serEnum k n =>
    obtain ⟨hk, hn⟩ : k < 256 ∧ n < 65536 := by simpa [WellFormed, fitsByte, fitsW] using hwf
    exact decode_packWord_of_says (by decide) hk hn ⟨_, rfl, ⟨fun _ => rfl, nofun, nofun, nofun⟩, rfl⟩
  case desEnum k =>
    exact decode_packWord_of_says (by decide) (of_decide_eq_true hwf) (by decide)
      ⟨_, rfl, ⟨fun _ => rfl, nofun, fun _ => rfl, nofun⟩, rfl⟩
  case crcChk | crcChks | frmBuild =>
    exact decode_packWord_of_says (by decide) (by decide) (by decide)
      ⟨_, rfl, ⟨nofun, fun _ => rfl, fun _ => rfl, nofun⟩, rfl⟩
  all_goals exact decode_packWord_of_says (by decide) (by decide) (by decide) (says_plain rfl)

/-! ## Encoding a decoding -/

/-- What fields in their ranges say is well formed, and its encoding packs these fields. -/
theorem encode_of_says {i : Instr} {opc : Nat} {f : Bool} {k w : Nat} (hk : k < 256) (hw : w < 65536)
    (h : Says i opc f k w) : WellFormed i = true ∧ encode i = packWord opc f k w := by
  obtain ⟨row, hrow, ⟨hflag, htable, himm, hindex⟩, rfl⟩ := h
  unfold rowOf at hrow
  split at hrow <;> cases hrow
  -- OPC 0x24, where F tells CRC.CHK from CRC.CHKS (R67)
  case h_28.refl =>
    obtain ⟨rfl, rfl⟩ : k = 0 ∧ w = 0 := ⟨htable rfl, himm rfl⟩
    cases f <;> exact ⟨rfl, rfl⟩
  all_goals simp_all [plainRow, immRow, flagImmRow, WellFormed, fitsW, fitsByte, encode]

/-- Settles O2: a legal word is the packing of its fields, and so is the encoding of the command they say. -/
theorem legalWordsAreEncodings : Obligations.LegalWordsAreEncodings := by
  intro word i hdec
  obtain ⟨hz, hsays⟩ := (decode_eq_ok_iff word i).1 hdec
  obtain ⟨hwf, hencode⟩ := encode_of_says (tableOf_lt word) (immOf_lt word) hsays
  exact ⟨hwf, hencode.trans (packWord_fields word hz)⟩

/-! ## Illegal words -/

/-- R64: the assigned OPC values are those that have a row. -/
theorem isSome_rowOf : ∀ opc < 64, ∀ f, (rowOf opc f).isSome = decide (opc ∈ assignedOpcodes) := by decide

/-- The columns F, K and W of R62. -/
theorem row_uses : ∀ opc < 64, ∀ f, ∀ row ∈ rowOf opc f,
    row.usesF = decide (opc ∈ flagOpcodes) ∧ row.usesK = decide (opc ∈ tableOpcodes) ∧
      row.usesW = decide (opc ∈ immOpcodes) := by decide

/-- For fields of a row, `Admits` rules out the grounds (c) to (f) of R65. -/
theorem admits_iff_of_rowOf {row : Row} {opc : Nat} {f : Bool} (k w : Nat) (ho : opc < 64)
    (hrow : rowOf opc f = some row) :
    Admits row opc f k w ↔
      ¬ (f = true ∧ opc ∉ flagOpcodes) ∧ ¬ (k ≠ 0 ∧ opc ∉ tableOpcodes) ∧ ¬ (w ≠ 0 ∧ opc ∉ immOpcodes) ∧
        ¬ (opc = 0x22 ∧ w / 256 ≠ 0) := by
  obtain ⟨hf, hk, hw⟩ := row_uses opc ho f row hrow
  simp only [admits_iff, hf, hk, hw, Bool.and_eq_true, Bool.not_eq_true', decide_eq_false_iff_not, bne_iff_ne,
    beq_iff_eq, and_comm]

theorem illegalForm_iff (word : CmdWord) :
    IllegalForm word ↔
      opcOf word ∉ assignedOpcodes ∨ zeroOf word = true ∨ (flagOf word = true ∧ opcOf word ∉ flagOpcodes) ∨
        (tableOf word ≠ 0 ∧ opcOf word ∉ tableOpcodes) ∨ (immOf word ≠ 0 ∧ opcOf word ∉ immOpcodes) ∨
        (opcOf word = 0x22 ∧ immOf word / 256 ≠ 0) := by
  rw [IllegalForm, extract_opc, bit_z, bit_f, extract_k, extract_w, extract_index_high]

/-- R65: a word decodes exactly when it has none of the grounds. -/
theorem decodes_iff_not_illegalForm (word : CmdWord) : (∃ i, decode word = .ok i) ↔ ¬ IllegalForm word := by
  have hsome := isSome_rowOf _ (opcOf_lt word) (flagOf word)
  simp only [decode_eq_ok_iff, illegalForm_iff, Says]
  cases hrow : rowOf (opcOf word) (flagOf word) with
  | none =>
    have hopc : opcOf word ∉ assignedOpcodes := by simpa [hrow] using hsome
    simp [hopc]
  | some row =>
    have hopc : opcOf word ∈ assignedOpcodes := by simpa [hrow] using hsome
    simp [hopc, admits_iff_of_rowOf _ _ (opcOf_lt word) hrow]

/-- R185 step 1: a word that does not decode raises IllegalCommand, and the command is over. -/
theorem runCommand_of_illegal {word : CmdWord} {r : IllegalWord} (s : State) (hdec : decode word = .error r) :
    runCommand word s = .next (release (raise .illegalCommand s)) := by
  simp [runCommand, hdec, deliver_of_next]

/-- Settles O3: `decodes_iff_not_illegalForm`, and `runCommand_of_illegal` on the command the step takes. -/
theorem illegalWordsRaiseIllegalCommand : Obligations.IllegalWordsRaiseIllegalCommand := by
  refine ⟨decodes_iff_not_illegalForm, ?_, by decide, by decide⟩
  intro s c rest hhost hillegal
  cases hdec : decode c.word with
  | ok i => exact absurd hillegal ((decodes_iff_not_illegalForm c.word).1 ⟨i, hdec⟩)
  | error r =>
    refine ⟨_, (step_of_command hhost).trans (runCommand_of_illegal _ hdec), ?_⟩
    exact ⟨rfl, rfl, rfl, rfl, rfl⟩

/-- Settles O4: by evaluation of the ten words. -/
theorem workedEncodings : Obligations.WorkedEncodings := by
  unfold Obligations.WorkedEncodings
  decide

end Sys2Proof.Proofs

/-! SUPPORT. The replies of the bit-sequence shifter and of the bit-reversal unit, and the statements of 40_bit_sequence.md. -/

namespace Sys2Proof.Proofs

open Machine Laws

/-! ## A reply as an answer and as an error -/

/-- A command whose whole effect is its reply answers exactly the result the reply holds. -/
theorem answers_iff_of_answer {i : Instr} {s : State} {r : Reply} (hexec : exec i s = answer s r) (v : Result) :
    Answers i s v ↔ r = .ok v := by
  rw [Answers, hexec]
  cases r <;> simp [answer, respond, raise]

/-- A command whose whole effect is its reply raises the error the reply holds. -/
theorem raises_of_answer {i : Instr} {s : State} {e : ErrorKind} (hexec : exec i s = answer s (.error e)) :
    Raises i s e := hexec

/-! ## The bit-sequence shifter -/

/-- R80: a bit string over the capacity is not loaded. -/
theorem raises_bsLoad {s : State} {d : Bits} (hd : s.operands.d = .bits d) (hcap : overCapacity s.params d = true) :
    Raises .bsLoad s .badOperand :=
  raises_of_answer (by simp [exec, execBsLoad, hd, hcap, answer])

theorem overCapacity_eq_true {p : Config.Params} {d : Bits} {m : Nat} (hm : p.maxBsBits = some m) (h : m < d.length) :
    overCapacity p d = true := by
  simp [overCapacity, hm, h]

/-- Settles O9: `exec_bsLoad` within the capacity, `raises_bsLoad` over it. -/
theorem bsLoadReplacesBs : Obligations.BsLoadReplacesBs := by
  refine ⟨decode_bsLoad, fun s d hd => ⟨fun hcap => ?_, fun m hm hlong => ?_⟩⟩
  · exact exec_bsLoad hd (overCapacity_eq_false hcap)
  · exact raises_bsLoad hd (overCapacity_eq_true hm hlong)

/-- R81: a pop of more bits than BS holds. -/
theorem raises_bsPop {s : State} {n : Nat} (hn : s.bs.length < n) : Raises (.bsPop n) s .insufficientBits :=
  raises_of_answer (by simp [exec, execBsPop, hn, answer])

/-- Settles O10: `exec_bsPop` on `BS = r ++ rest`, whose first `n` bits are `r`, and `raises_bsPop`. -/
theorem bsPopTakesThePrefix : Obligations.BsPopTakesThePrefix := by
  refine ⟨fun n => decode_bsPop, fun s n => ⟨?_, raises_bsPop⟩⟩
  rintro r rest hbs rfl
  have hlen : r.length ≤ s.bs.length := by simp [hbs]
  rw [exec_bsPop hlen, hbs, List.take_left, List.drop_left]
  rfl

/-- Settles O11: the arm of BS.LEN is the statement. -/
theorem bsLenCountsBs : Obligations.BsLenCountsBs := ⟨rfl, fun _ => rfl⟩

/-- The reply of BS.END (R83). -/
theorem exec_bsEnd (s : State) :
    exec .bsEnd s = answer s (if s.bs.length = 0 then .ok .unit else .error .dataTooLong) := rfl

/-- Settles O12: the two replies of `exec_bsEnd`. -/
theorem bsEndDetectsLeftoverBits : Obligations.BsEndDetectsLeftoverBits := by
  refine ⟨rfl, fun s => ⟨fun hempty => ?_, fun hbits => ?_⟩⟩
  · exact (answers_iff_of_answer (exec_bsEnd s) _).2 (if_pos (List.length_eq_zero_iff.2 hempty))
  · have hlen : s.bs.length ≠ 0 := mt List.length_eq_zero_iff.1 hbits
    exact raises_of_answer ((exec_bsEnd s).trans (by rw [if_neg hlen]))

/-! ## REV.B -/

/-- A slot is read as a byte exactly when it holds that byte's number (R10). -/
theorem readByte_eq_some_iff (v : Value) (b : Byte) : readByte v = some b ↔ v = .num ((b.toNat : Int) : Rat) := by
  constructor
  · exact readByte_some v b
  · rintro rfl
    have hread := readByte_num b.toNat b.isLt
    rwa [BitVec.ofNat_toNat, BitVec.setWidth_eq] at hread

/-- R84: what REV.B answers. -/
theorem answers_revB_iff (s : State) (r : Nat) :
    Answers .revB s (.nat r) ↔ ∃ b : Byte, s.operands.a = .num ((b.toNat : Int) : Rat) ∧ (rev8 b).toNat = r := by
  have hexec : exec .revB s = answer s (withByte s.operands.a fun b => .ok (.nat (rev8 b).toNat)) := rfl
  rw [answers_iff_of_answer hexec, withByte_eq]
  simp only [← readByte_eq_some_iff]
  cases readByte s.operands.a <;> simp

/-- R84: REV.B raises where op.A holds no byte. -/
theorem raises_revB {s : State} (h : readByte s.operands.a = none) : Raises .revB s .badOperand :=
  raises_of_answer (by simp [exec, execRevB, withByte, h])

/-- Settles O14: the answer is `rev8` of the byte, which is `Reversed`; where no byte stands on op.A, none is read. -/
theorem revBReversesAByte : Obligations.RevBReversesAByte := by
  refine ⟨rfl, fun s => ⟨fun b hb => ?_, fun hnone => ?_⟩⟩
  · exact ⟨rev8 b, reversed_rev8 b, (answers_revB_iff s _).2 ⟨b, hb, rfl⟩⟩
  · refine raises_revB (Option.eq_none_iff_forall_ne_some.2 fun b hread => ?_)
    exact hnone b ((readByte_eq_some_iff _ b).1 hread)

/-! ## REV.BS -/

/-- R85: what REV.BS answers to a byte string. -/
theorem answers_revBs_iff {s : State} {d : Bytes} (hd : s.operands.d = bytesValue d) (r : Bytes) :
    Answers .revBs s (.bytes r) ↔ revBytes d = r := by
  have hexec : exec .revBs s = answer s (.ok (.bytes (revBytes d))) := by
    simp [exec, execRevBs, withBytes, hd, readBytes_bytesValue]
  rw [answers_iff_of_answer hexec, Except.ok.injEq, Result.bytes.injEq]

/-- Settles O15: the answer is `revBytes`, whose bytes are `Reversed` one by one. -/
theorem revBsReversesEveryByte : Obligations.RevBsReversesEveryByte :=
  ⟨rfl, fun _ d hd => ⟨revBytes d, revBytes_reversed d, (answers_revBs_iff hd _).2 rfl⟩⟩

/-! ## REV.I -/

/-- R62: the words of REV.I. -/
theorem decode_revI {n : Nat} (hn : n < 65536) : decode (BitVec.ofNat 32 (0x28000000 + n)) = .ok (.revI n) :=
  decode_imm 0x0A .revI (by decide) (by decide) n hn rfl

/-- A slot is read as a `Nat` exactly when it holds that number. -/
theorem readNat_eq_some_iff (v : Value) (n : Nat) : readNat v = some n ↔ v = .num (n : Rat) := by
  constructor
  · intro hread
    unfold readNat at hread
    split at hread <;> cases hread
    next hint => exact readInt_some v _ hint
  · rintro rfl
    exact readNat_num n

/-- R86: the width and range checks of REV.I. -/
theorem revInt_eq_badOperand {n v : Nat} (h : n = 0 ∨ 2 ^ (8 * n) ≤ v) : revInt n v = .error .badOperand := by
  unfold revInt
  split_ifs with hn hv
  · rfl
  · rfl
  · exact absurd h (not_or.2 ⟨hn, hv⟩)

/-- R86: REV.I results in the number with every byte reversed, past both checks. -/
theorem revInt_eq_ok_iff (n v r : Nat) :
    revInt n v = .ok (.nat r) ↔ n ≠ 0 ∧ v < 2 ^ (8 * n) ∧ revNat v n = r := by
  unfold revInt
  split_ifs <;> simp_all

/-- R86: REV.I reads a natural number from op.A. -/
theorem exec_revI (n : Nat) (s : State) : exec (.revI n) s = answer s (withNat s.operands.a (revInt n)) := rfl

/-- R86: what REV.I answers to a natural number. -/
theorem answers_revI_iff {s : State} {v : Nat} (hv : s.operands.a = .num (v : Rat)) (n r : Nat) :
    Answers (.revI n) s (.nat r) ↔ n ≠ 0 ∧ v < 2 ^ (8 * n) ∧ revNat v n = r := by
  rw [answers_iff_of_answer (exec_revI n s), ← revInt_eq_ok_iff, hv, withNat, readNat_num]

/-- REV.I raises BadOperand where op.A holds no natural number, and where its checks fail on the one that stands there. -/
theorem raises_revI {s : State} {n : Nat}
    (h : ∀ v, readNat s.operands.a = some v → revInt n v = .error .badOperand) : Raises (.revI n) s .badOperand := by
  have hreply : withNat s.operands.a (revInt n) = .error .badOperand := by
    unfold withNat
    split
    · next v hread => exact h v hread
    · rfl
  exact raises_of_answer ((exec_revI n s).trans (by rw [hreply]))

/-- R86: an integer operand that is negative or does not fit. -/
theorem raises_revI_of_out_of_range {s : State} {n : Nat} {v : Int} (hv : s.operands.a = .num (v : Rat))
    (hrange : v < 0 ∨ 2 ^ (8 * n) ≤ v) : Raises (.revI n) s .badOperand := by
  refine raises_revI fun u hread => revInt_eq_badOperand (.inr ?_)
  obtain rfl : v = u := by
    have hnum := Value.num.inj (hv.symm.trans ((readNat_eq_some_iff _ u).1 hread))
    exact_mod_cast hnum
  have hfits : (2 : Int) ^ (8 * n) ≤ u := hrange.resolve_left (by omega)
  exact_mod_cast hfits

/-- Settles O16: past the checks the answer is `revNat`, whose bits are those of `revNat_bit`. -/
theorem revIReversesInsideBytes : Obligations.RevIReversesInsideBytes := by
  refine ⟨fun n => decode_revI, fun s n => ⟨?_, fun v => raises_revI_of_out_of_range, fun v hn hv hfits => ?_⟩⟩
  · exact fun hzero => raises_revI fun v _ => revInt_eq_badOperand (.inl hzero)
  · exact ⟨revNat v n, revNat_lt v n, fun j hj k => revNat_bit v n j k hj, (answers_revI_iff hv n _).2 ⟨hn, hfits, rfl⟩⟩

/-! ## Reversing twice -/

/-- R86: byte by byte, the bits `7 - k` of the reversal are the bits `k` of the operand; above the width both are 0. -/
theorem revNat_revNat {v n : Nat} (hv : v < 2 ^ (8 * n)) : revNat (revNat v n) n = v := by
  refine Nat.eq_of_testBit_eq fun i => ?_
  by_cases hi : i < 8 * n
  · obtain ⟨j, k, hk, rfl⟩ : ∃ j k, k < 8 ∧ i = 8 * j + k := ⟨i / 8, i % 8, by omega, by omega⟩
    have hj : j < n := by omega
    rw [revNat_bit _ n j k hj hk, revNat_bit v n j (7 - k) hj (by omega), show 7 - (7 - k) = k by omega]
  · have hwidth : 2 ^ (8 * n) ≤ 2 ^ i := Nat.pow_le_pow_right (by decide) (not_lt.1 hi)
    rw [Nat.testBit_lt_two_pow ((revNat_lt _ n).trans_le hwidth), Nat.testBit_lt_two_pow (hv.trans_le hwidth)]

theorem revBytes_revBytes (d : Bytes) : revBytes (revBytes d) = d := invertIf_twice true d

/-- Settles O17: `rev8_rev8`, `revBytes_revBytes` and `revNat_revNat` on what each command answers. -/
theorem reversingTwiceIsTheIdentity : Obligations.ReversingTwiceIsTheIdentity := by
  refine ⟨?revB, ?revBs, ?revI⟩
  case revB =>
    intro s b r hb hanswer
    obtain ⟨c, hc, rfl⟩ := (answers_revB_iff s r).1 hanswer
    have hbc : b = c.toNat := by
      have hnum := Value.num.inj (hb.symm.trans hc)
      exact_mod_cast hnum
    exact (answers_revB_iff _ b).2 ⟨rev8 c, rfl, by rw [rev8_rev8, hbc]⟩
  case revBs =>
    intro s d r hd hanswer
    obtain rfl := (answers_revBs_iff hd r).1 hanswer
    exact (answers_revBs_iff rfl d).2 (revBytes_revBytes d)
  case revI =>
    intro s n v r hv hanswer
    obtain ⟨hn, hfits, rfl⟩ := (answers_revI_iff hv n r).1 hanswer
    exact (answers_revI_iff rfl n v).2 ⟨hn, revNat_lt v n, revNat_revNat hfits⟩

end Sys2Proof.Proofs

/-! SUPPORT. The replies of the field codec, and the statements of 41_field_codec.md. -/

namespace Sys2Proof.Proofs

open Machine Laws

/-- A command whose whole effect is its reply, the reply being worked out to be an error. -/
theorem raises_of_reply {i : Instr} {s : State} {r : Reply} {e : ErrorKind} (hexec : exec i s = answer s r)
    (hr : r = .error e) : Raises i s e :=
  raises_of_answer (hr ▸ hexec)

/-! ## The checks of a width and of a resolution

`r` is the rest of the rule: it counts once the check has passed. -/

section

variable {i : Instr} {s : State} {n : Nat} {res : Rat} {r : Reply}

/-- R100: a width of zero. -/
theorem raises_of_withWidth (hexec : exec i s = answer s (withWidth n r)) (hn : n = 0) :
    Raises i s .badIntegerSize :=
  raises_of_reply hexec (if_pos hn)

/-- R100: past the width check. -/
theorem exec_of_withWidth (hexec : exec i s = answer s (withWidth n r)) (hn : n ≠ 0) : exec i s = answer s r :=
  hexec.trans (by rw [withWidth, if_neg hn])

/-- R106: a resolution that is not positive. -/
theorem raises_of_withResolution (hexec : exec i s = answer s (withResolution res r)) (hres : res ≤ 0) :
    Raises i s .badOperand :=
  raises_of_reply hexec (if_pos hres)

/-- R106: past the resolution check. -/
theorem exec_of_withResolution (hexec : exec i s = answer s (withResolution res r)) (hres : 0 < res) :
    exec i s = answer s r :=
  hexec.trans (by rw [withResolution, if_neg (not_le.2 hres)])

/-- A command of a scaled field makes both checks in their order, and then has the reply of its own rule. -/
theorem scaled_of_exec (hexec : exec i s = answer s (withWidth n (withResolution res r))) :
    (n = 0 → Raises i s .badIntegerSize) ∧ (n ≠ 0 → res ≤ 0 → Raises i s .badOperand) ∧
      (n ≠ 0 → 0 < res → exec i s = answer s r) :=
  ⟨raises_of_withWidth hexec, fun hn => raises_of_withResolution (exec_of_withWidth hexec hn),
    fun hn => exec_of_withResolution (exec_of_withWidth hexec hn)⟩

/-- `scaled_of_exec` for a field that is read, whose width is its length. -/
theorem scaled_of_exec_length {d : Bits} (hexec : exec i s = answer s (withWidth d.length (withResolution res r))) :
    (d = [] → Raises i s .badIntegerSize) ∧ (d ≠ [] → res ≤ 0 → Raises i s .badOperand) ∧
      (d ≠ [] → 0 < res → exec i s = answer s r) := by
  simpa only [Ne, List.length_eq_zero_iff] using scaled_of_exec hexec

end

/-! ## The replies, once the slots are read -/

section

variable {s : State} {c : Bool} {n k : Nat} {v : Int} {x off res : Rat} {d : Bits}

theorem exec_serU (ha : s.operands.a = .num (v : Rat)) :
    exec (.serU c n) s = answer s (withWidth n (putUnsigned n c v)) := by
  simp only [exec, execSerU, ha, withInt, readInt_num]

theorem exec_serS (ha : s.operands.a = .num (v : Rat)) :
    exec (.serS c n) s = answer s (withWidth n (putSigned n c v)) := by
  simp only [exec, execSerS, ha, withInt, readInt_num]

theorem exec_serRu (ha : s.operands.a = .num x) (hb : s.operands.b = .num res) :
    exec (.serRu c n) s = answer s (withWidth n (withResolution res (putUnsigned n c (rhaz (x / res))))) := by
  simp only [exec, execSerRu, ha, hb, withRat, readRat_num]

theorem exec_serRs (ha : s.operands.a = .num x) (hb : s.operands.b = .num res) :
    exec (.serRs c n) s = answer s (withWidth n (withResolution res (putSigned n c (rhaz (x / res))))) := by
  simp only [exec, execSerRs, ha, hb, withRat, readRat_num]

theorem exec_serRo (ha : s.operands.a = .num x) (hb : s.operands.b = .num off) (hc : s.operands.c = .num res) :
    exec (.serRo c n) s =
      answer s (withWidth n (withResolution res (putUnsigned n c (rhaz ((x - off) / res))))) := by
  simp only [exec, execSerRo, ha, hb, hc, withRat, readRat_num]

theorem exec_serEnum (ha : s.operands.a = .num (v : Rat)) :
    exec (.serEnum k n) s = answer s (withWidth n (putEnum s.params k n v)) := by
  simp only [exec, execSerEnum, ha, withInt, readInt_num]

theorem exec_desU (hd : s.operands.d = .bits d) :
    exec .desU s = answer s (withWidth d.length (.ok (.nat (uint d)))) := by
  simp only [exec, execDesU, hd, withBits, readBits_bits]

theorem exec_desS (hd : s.operands.d = .bits d) :
    exec .desS s = answer s (withWidth d.length (.ok (.int (sint d)))) := by
  simp only [exec, execDesS, hd, withBits, readBits_bits]

theorem exec_desRu (hd : s.operands.d = .bits d) (hb : s.operands.b = .num res) :
    exec .desRu s = answer s (withWidth d.length (withResolution res (.ok (.rat (uint d * res))))) := by
  simp only [exec, execDesRu, hd, hb, withBits, readBits_bits, withRat, readRat_num]

theorem exec_desRs (hd : s.operands.d = .bits d) (hb : s.operands.b = .num res) :
    exec .desRs s = answer s (withWidth d.length (withResolution res (.ok (.rat (sint d * res))))) := by
  simp only [exec, execDesRs, hd, hb, withBits, readBits_bits, withRat, readRat_num]

theorem exec_desRo (hd : s.operands.d = .bits d) (hb : s.operands.b = .num off) (hc : s.operands.c = .num res) :
    exec .desRo s = answer s (withWidth d.length (withResolution res (.ok (.rat (off + res * uint d))))) := by
  simp only [exec, execDesRo, hd, hb, hc, withBits, readBits_bits, withRat, readRat_num]

theorem exec_desEnum (hd : s.operands.d = .bits d) :
    exec (.desEnum k) s = answer s (withWidth d.length
      (if isMember s.params k (uint d) then .ok (.nat (uint d)) else .error .unknownEnumValue)) := by
  simp only [exec, execDesEnum, hd, withBits, readBits_bits]

theorem exec_desBool (hd : s.operands.d = .bits d) : exec .desBool s = answer s (boolOfBits d) := by
  simp only [exec, execDesBool, hd, withBits, readBits_bits]

theorem exec_serTxt {t : Bytes} (hd : s.operands.d = bytesValue t) : exec (.serTxt n) s = answer s (putText n t) := by
  simp only [exec, execSerTxt, hd, withBytes, readBytes_bytesValue]

theorem exec_desTxt (hd : s.operands.d = .bits d) :
    exec .desTxt s = answer s
      (if d.length = 0 ∨ d.length % 8 ≠ 0 then .error .badOperand else .ok (.bytes (bitsToBytes d))) := by
  simp only [exec, execDesTxt, hd, withBits, readBits_bits]

end

theorem length_ne_zero_of_ne_nil {d : Bits} (hd : d ≠ []) : d.length ≠ 0 := mt List.length_eq_zero_iff.1 hd

/-! ## Integer fields -/

/-- Settles O18: past the width check the reply is the unsigned step. -/
theorem serUWritesAnUnsignedField : Obligations.SerUWritesAnUnsignedField := by
  refine ⟨fun c n hn => decode_flagImm 0x10 .serU (by decide) (by decide) c n hn rfl,
    fun s c n v ha => ⟨?_, fun hn => ?_⟩⟩
  · exact raises_of_withWidth (exec_serU ha)
  · exact putsUnsigned_of_exec _ s n c v (exec_of_withWidth (exec_serU ha) hn)

/-- Settles O20: past the width check the reply is the signed step. -/
theorem serSWritesASignedField : Obligations.SerSWritesASignedField := by
  refine ⟨fun c n hn => decode_flagImm 0x12 .serS (by decide) (by decide) c n hn rfl,
    fun s c n v ha => ⟨?_, fun hn => ?_⟩⟩
  · exact raises_of_withWidth (exec_serS ha)
  · exact putsSigned_of_exec _ s n c v (exec_of_withWidth (exec_serS ha) hn)

/-- R103: DES.U answers the number its operand is. -/
theorem answers_desU {s : State} {d : Bits} (hd : s.operands.d = .bits d) (hne : d ≠ []) :
    Answers .desU s (.nat (uint d)) :=
  exec_of_withWidth (exec_desU hd) (length_ne_zero_of_ne_nil hne)

/-- R105: DES.S answers the integer its operand is. -/
theorem answers_desS {s : State} {d : Bits} (hd : s.operands.d = .bits d) (hne : d ≠ []) :
    Answers .desS s (.int (sint d)) :=
  exec_of_withWidth (exec_desS hd) (length_ne_zero_of_ne_nil hne)

/-- Settles O19: every bit string spells its `uint`. -/
theorem desUReadsAnUnsignedField : Obligations.DesUReadsAnUnsignedField := by
  refine ⟨rfl, fun s d hd => ⟨fun hnil => ?_, fun hne => ?_⟩⟩
  · exact raises_of_withWidth (exec_desU hd) (List.length_eq_zero_iff.2 hnil)
  · exact ⟨uint d, spells_uint d, answers_desU hd hne⟩

/-- Settles O21: every bit string but the empty one is its `sint` in two's complement. -/
theorem desSReadsASignedField : Obligations.DesSReadsASignedField := by
  refine ⟨rfl, fun s d hd => ⟨fun hnil => ?_, fun hne => ?_⟩⟩
  · exact raises_of_withWidth (exec_desS hd) (List.length_eq_zero_iff.2 hnil)
  · exact ⟨sint d, spellsInt_sint d hne, answers_desS hd hne⟩

/-! ## Scaled fields -/

/-- Settles O22: past both checks the reply is the unsigned step on `rhaz` of the quotient. -/
theorem serRuScalesAndRounds : Obligations.SerRuScalesAndRounds := by
  refine ⟨fun c n hn => decode_flagImm 0x14 .serRu (by decide) (by decide) c n hn rfl,
    fun s c n x res ha hb => ?_⟩
  obtain ⟨hzero, hbad, hput⟩ := scaled_of_exec (exec_serRu (c := c) (n := n) ha hb)
  exact ⟨hzero, hbad, fun hn hres => ⟨_, rhaz_roundsTo _, putsUnsigned_of_exec _ s n c _ (hput hn hres)⟩⟩

/-- Settles O24: past both checks the reply is the signed step on `rhaz` of the quotient. -/
theorem serRsScalesAndRounds : Obligations.SerRsScalesAndRounds := by
  refine ⟨fun c n hn => decode_flagImm 0x16 .serRs (by decide) (by decide) c n hn rfl,
    fun s c n x res ha hb => ?_⟩
  obtain ⟨hzero, hbad, hput⟩ := scaled_of_exec (exec_serRs (c := c) (n := n) ha hb)
  exact ⟨hzero, hbad, fun hn hres => ⟨_, rhaz_roundsTo _, putsSigned_of_exec _ s n c _ (hput hn hres)⟩⟩

/-- Settles O26: past both checks the reply is the unsigned step on `rhaz` of the quotient, the offset taken off first. -/
theorem serRoSubtractsTheOffset : Obligations.SerRoSubtractsTheOffset := by
  refine ⟨fun c n hn => decode_flagImm 0x18 .serRo (by decide) (by decide) c n hn rfl,
    fun s c n x off res ha hb hc => ?_⟩
  obtain ⟨hzero, hbad, hput⟩ := scaled_of_exec (exec_serRo (c := c) (n := n) ha hb hc)
  exact ⟨hzero, hbad, fun hn hres => ⟨_, rhaz_roundsTo _, putsUnsigned_of_exec _ s n c _ (hput hn hres)⟩⟩

/-- Settles O23: past both checks DES.RU scales the `uint` of the field, which the field spells. -/
theorem desRuMultipliesBack : Obligations.DesRuMultipliesBack := by
  refine ⟨rfl, fun s d res hd hb => ?_⟩
  obtain ⟨hempty, hbad, hread⟩ := scaled_of_exec_length (exec_desRu hd hb)
  exact ⟨hempty, hbad, fun hne hres => ⟨uint d, spells_uint d, hread hne hres⟩⟩

/-- Settles O25: past both checks DES.RS scales the `sint` of the field. -/
theorem desRsMultipliesBack : Obligations.DesRsMultipliesBack := by
  refine ⟨rfl, fun s d res hd hb => ?_⟩
  obtain ⟨hempty, hbad, hread⟩ := scaled_of_exec_length (exec_desRs hd hb)
  exact ⟨hempty, hbad, fun hne hres => ⟨sint d, spellsInt_sint d hne, hread hne hres⟩⟩

/-- Settles O27: past both checks DES.RO scales the `uint` of the field and adds the offset. -/
theorem desRoAddsTheOffset : Obligations.DesRoAddsTheOffset := by
  refine ⟨rfl, fun s d off res hd hb hc => ?_⟩
  obtain ⟨hempty, hbad, hread⟩ := scaled_of_exec_length (exec_desRo hd hb hc)
  exact ⟨hempty, hbad, fun hne hres => ⟨uint d, spells_uint d, hread hne hres⟩⟩

/-! ## Fields of one bit -/

/-- The reply of SER.BOOL once op.A is read (R113). -/
def boolFieldReply (v : Int) : Reply :=
  if v = 0 then .ok (.bits [false]) else if v = 1 then .ok (.bits [true]) else .error .badOperand

theorem exec_serBool (s : State) : exec .serBool s = answer s (withInt s.operands.a boolFieldReply) := rfl

/-- R113: what SER.BOOL replies to an integer. -/
theorem exec_serBool_num {s : State} {v : Int} (ha : s.operands.a = .num (v : Rat)) :
    exec .serBool s = answer s (boolFieldReply v) := by
  rw [exec_serBool, ha, withInt, readInt_num]

/-- Settles O28: an operand that is neither 0 nor 1 is no integer, or an integer that fails both tests. -/
theorem serBoolWritesOneBit : Obligations.SerBoolWritesOneBit := by
  refine ⟨rfl, fun s => ⟨fun ha => ?_, fun ha => ?_, fun hne0 hne1 => ?_⟩⟩
  · exact exec_serBool_num (v := 0) (by rw [ha, Int.cast_zero])
  · exact exec_serBool_num (v := 1) (by rw [ha, Int.cast_one])
  · refine raises_of_reply (exec_serBool s) ?_
    unfold withInt
    cases hread : readInt s.operands.a with
    | none => rfl
    | some v =>
      have ha := readInt_some _ v hread
      have hv0 : v ≠ 0 := by rintro rfl; exact hne0 (by rw [ha, Int.cast_zero])
      have hv1 : v ≠ 1 := by rintro rfl; exact hne1 (by rw [ha, Int.cast_one])
      simp only [boolFieldReply, if_neg hv0, if_neg hv1]

theorem boolOfBits_of_length_ne_one {d : Bits} (h : d.length ≠ 1) : boolOfBits d = .error .badIntegerSize := by
  match d with
  | [] => rfl
  | [_] => exact absurd rfl h
  | _ :: _ :: _ => rfl

/-- Settles O29: by the shapes of the operand. -/
theorem desBoolReadsOneBit : Obligations.DesBoolReadsOneBit := by
  refine ⟨rfl, fun s d hd => ⟨?_, fun hlen => ?_⟩⟩
  · rintro b rfl
    exact exec_desBool hd
  · exact raises_of_reply (exec_desBool hd) (boolOfBits_of_length_ne_one hlen)

/-! ## Text fields -/

theorem length_fitText (m : Nat) (d : Bytes) : (fitText m d).length = m := by
  unfold fitText
  split_ifs with hshort
  · rw [List.length_append, List.length_replicate]; omega
  · rw [List.length_take]; omega

/-- R115: byte `j` of the field is byte `j` of the text, or a space beyond its end. -/
theorem getElem?_fitText {m j : Nat} (d : Bytes) (hj : j < m) : (fitText m d)[j]? = some (d.getD j 0x20#8) := by
  rw [List.getD_eq_getElem?_getD]
  rcases lt_or_ge j d.length with hin | hout
  · have hkeep : (fitText m d)[j]? = d[j]? := by
      unfold fitText
      split_ifs
      · exact List.getElem?_append_left hin
      · exact List.getElem?_take_of_lt hj
    rw [hkeep, List.getElem?_eq_getElem hin, Option.getD_some]
  · have hpad : j - d.length < m - d.length := by omega
    rw [fitText, if_pos (hout.trans_lt hj), List.getElem?_append_right hout, List.getElem?_replicate, if_pos hpad,
      List.getElem?_eq_none hout, Option.getD_none]

/-- R115: the checks of SER.TXT. -/
theorem putText_eq_badOperand {n : Nat} {d : Bytes} (h : (n = 0 ∨ n % 8 ≠ 0) ∨ ∃ b ∈ d, 0x7F < b.toNat) :
    putText n d = .error .badOperand := by
  unfold putText
  split_ifs with hwidth hany
  · rfl
  · rfl
  · have hascii : ∃ b ∈ d, 0x7F < b.toNat := h.resolve_left hwidth
    exact absurd (by simpa using hascii) hany

/-- R115: SER.TXT past both checks. -/
theorem putText_eq_ok {n : Nat} {d : Bytes} (hn : n ≠ 0) (hmul : n % 8 = 0) (hascii : ∀ b ∈ d, b.toNat ≤ 0x7F) :
    putText n d = .ok (.bits (bytesToBits (fitText (n / 8) d))) := by
  have hwidth : ¬ (n = 0 ∨ n % 8 ≠ 0) := by omega
  have hany : ¬ (d.any fun b => decide (0x7F < b.toNat)) = true := by simpa using hascii
  rw [putText, if_neg hwidth, if_neg hany]

/-- Settles O30: the field holds the bytes of `fitText`. -/
theorem serTxtPadsOrTruncates : Obligations.SerTxtPadsOrTruncates := by
  refine ⟨fun n hn => decode_imm 0x1C .serTxt (by decide) (by decide) n hn rfl,
    fun s n d hd => ⟨fun hwidth => ?_, fun hbyte => ?_, fun hn hmul hascii => ?_⟩⟩
  · exact raises_of_reply (exec_serTxt hd) (putText_eq_badOperand (.inl hwidth))
  · exact raises_of_reply (exec_serTxt hd) (putText_eq_badOperand (.inr hbyte))
  · refine ⟨fitText (n / 8) d, _, length_fitText _ d, fun j => getElem?_fitText d, bytesToBits_spells _, ?_⟩
    exact (answers_iff_of_answer (exec_serTxt hd) _).2 (putText_eq_ok hn hmul hascii)

/-- A bit string of whole bytes holds the bytes it is converted to (R44, R47). -/
theorem spellsBytes_bitsToBytes {d : Bits} (hmul : d.length % 8 = 0) : SpellsBytes d (bitsToBytes d) := by
  obtain ⟨hback, -⟩ := bytesToBits_bitsToBytes (d.length / 8) d (by omega)
  simpa only [hback] using bytesToBits_spells (bitsToBytes d)

/-- Settles O31: the answer is `bitsToBytes`. -/
theorem desTxtReturnsEveryByte : Obligations.DesTxtReturnsEveryByte := by
  refine ⟨rfl, fun s d hd => ⟨fun hlen => ?_, fun hne hmul => ?_⟩⟩
  · rw [← List.length_eq_zero_iff] at hlen
    exact raises_of_reply (exec_desTxt hd) (if_pos hlen)
  · have hlen : ¬ (d.length = 0 ∨ d.length % 8 ≠ 0) := not_or.2 ⟨length_ne_zero_of_ne_nil hne, not_not.2 hmul⟩
    exact ⟨_, spellsBytes_bitsToBytes hmul, (answers_iff_of_answer (exec_desTxt hd) _).2 (if_neg hlen)⟩

/-! ## Enumerations -/

/-- R62: the words of SER.ENUM. -/
theorem decode_serEnum {k n : Nat} (hk : k < 256) (hn : n < 65536) :
    decode (BitVec.ofNat 32 (0x78000000 + k * 2 ^ 16 + n)) = .ok (.serEnum k n) := by
  simpa [encode, packWord] using decodeEncodeRoundTrip (.serEnum k n) (by simp [WellFormed, fitsByte, fitsW, hk, hn])

/-- R62: the words of DES.ENUM. -/
theorem decode_desEnum {k : Nat} (hk : k < 256) :
    decode (BitVec.ofNat 32 (0x7C000000 + k * 2 ^ 16)) = .ok (.desEnum k) := by
  simpa [encode, packWord] using decodeEncodeRoundTrip (.desEnum k) (by simp [WellFormed, fitsByte, hk])

section

variable {p : Config.Params} {k n : Nat} {v : Int}

theorem putEnum_of_not_mem (hmem : ¬ (0 ≤ v ∧ v.toNat ∈ p.enumTables.getD k [])) :
    putEnum p k n v = .error .unknownEnumValue := by
  rw [putEnum, if_neg (mt (isMember_iff p k v).1 hmem)]

/-- R117: for a member, which is not negative, only the range check is left. -/
theorem putEnum_of_mem (hv : 0 ≤ v) (hmem : v.toNat ∈ p.enumTables.getD k []) :
    putEnum p k n v = if 2 ^ n - 1 < v then .error .badIntegerSize else .ok (.bits (bitsOf v n)) := by
  rw [putEnum, if_pos ((isMember_iff p k v).2 ⟨hv, hmem⟩), if_neg (not_lt.2 hv)]

end

/-- Settles O32: the width check, then `putEnum` by membership. -/
theorem serEnumWritesAMember : Obligations.SerEnumWritesAMember := by
  refine ⟨fun k hk n => decode_serEnum hk, fun s k n v ha => ⟨?zero, ?unknown, ?large, ?fits⟩⟩
  case zero => exact raises_of_withWidth (exec_serEnum ha)
  case unknown =>
    intro hn hmem
    exact raises_of_reply (exec_of_withWidth (exec_serEnum ha) hn) (putEnum_of_not_mem hmem)
  case large =>
    intro hn hv hmem hlarge
    exact raises_of_reply (exec_of_withWidth (exec_serEnum ha) hn) ((putEnum_of_mem hv hmem).trans (if_pos hlarge))
  case fits =>
    intro hn hv hmem hfits
    refine ⟨bitsOf v n, bitsOf_length v n, spells_bitsOf_range v n hv hfits, ?_⟩
    exact (answers_iff_of_answer (exec_of_withWidth (exec_serEnum ha) hn) _).2
      ((putEnum_of_mem hv hmem).trans (if_neg (not_lt.2 hfits)))

theorem isMember_natCast (p : Config.Params) (k u : Nat) :
    isMember p k (u : Int) = true ↔ u ∈ p.enumTables.getD k [] := by
  simp [isMember_iff]

/-- Settles O33: past the width check the reply is decided by membership of `uint`. -/
theorem desEnumReadsAMember : Obligations.DesEnumReadsAMember := by
  refine ⟨fun k => decode_desEnum, fun s k d hd => ⟨fun hnil => ?_, fun hne => ?_⟩⟩
  · exact raises_of_withWidth (exec_desEnum hd) (List.length_eq_zero_iff.2 hnil)
  · have hexec := exec_of_withWidth (exec_desEnum (k := k) hd) (length_ne_zero_of_ne_nil hne)
    simp only [isMember_natCast] at hexec
    refine ⟨uint d, spells_uint d, fun hmem => ?_, fun hmem => ?_⟩
    · exact (answers_iff_of_answer hexec _).2 (if_pos hmem)
    · exact raises_of_reply hexec (if_neg hmem)

/-! ## What the SER commands wrote, the DES commands read back -/

theorem uint_eq_of_spells {b : Bits} {v : Nat} (h : Spells b v) : uint b = v :=
  spells_unique b _ _ (spells_uint b) h

theorem sint_eq_of_spellsInt {b : Bits} {v : Int} (hb : b ≠ []) (h : SpellsInt b v) : sint b = v :=
  spellsInt_unique b hb _ _ (spellsInt_sint b hb) h

/-- The field of an unsigned step that does not raise: it spells the value, or the largest one if that is nearer (R102). -/
theorem field_of_putsUnsigned {i : Instr} {s : State} {n : Nat} {c : Bool} {r : Int} (hput : PutsUnsigned i s n c r)
    (hr : 0 ≤ r) (hc : c = true ∨ r ≤ 2 ^ n - 1) :
    ∃ b, b.length = n ∧ Spells b (min r (2 ^ n - 1)).toNat ∧ Answers i s (.bits b) := by
  obtain ⟨-, hfits, hlarge, -⟩ := hput
  rcases le_or_gt r (2 ^ n - 1) with hle | hgt
  · rw [min_eq_left hle]
    exact hfits hr hle
  · have hmax : (2 ^ n - 1 : Int).toNat = 2 ^ n - 1 := by
      have hcast : ((2 ^ n : Nat) : Int) = 2 ^ n := by push_cast; rfl
      omega
    rw [min_eq_right hgt.le, hmax]
    exact ⟨_, List.length_replicate, spells_replicate n, hlarge hgt (hc.resolve_right (not_le.2 hgt))⟩

/-- The field of a signed step that does not raise: it is the value moved into the range (R104). -/
theorem field_of_putsSigned {i : Instr} {s : State} {n : Nat} {c : Bool} {r : Int} (hput : PutsSigned i s n c r)
    (hc : c = true ∨ (-2 ^ (n - 1) ≤ r ∧ r ≤ 2 ^ (n - 1) - 1)) :
    ∃ b, b.length = n ∧ SpellsInt b (max (-2 ^ (n - 1)) (min r (2 ^ (n - 1) - 1))) ∧ Answers i s (.bits b) := by
  have hpos : (0 : Int) < 2 ^ (n - 1) := by positivity
  obtain ⟨hfits, hsmall, hlarge, -⟩ := hput
  rcases lt_or_ge r (-2 ^ (n - 1)) with hlt | hge
  · rw [min_eq_left (by omega), max_eq_left hlt.le]
    exact hsmall hlt (hc.resolve_right (by omega))
  · rcases le_or_gt r (2 ^ (n - 1) - 1) with hle | hgt
    · rw [min_eq_left hle, max_eq_right hge]
      exact hfits hge hle
    · rw [min_eq_right hgt.le, max_eq_right (by omega)]
      exact hlarge hgt (hc.resolve_right (by omega))

/-- Settles O34: DES.U and DES.S read the one value that the field written spells. -/
theorem integerFieldsRoundTrip : Obligations.IntegerFieldsRoundTrip := by
  intro s c n v hn ha
  constructor
  · intro hv hc
    obtain ⟨-, hput⟩ := serUWritesAnUnsignedField.2 s c n v ha
    obtain ⟨b, hlen, hspells, hanswer⟩ := field_of_putsUnsigned (hput hn) hv hc
    refine ⟨b, hlen, hanswer, ?_⟩
    rw [← uint_eq_of_spells hspells]
    exact answers_desU rfl (ne_nil_of_length b n hlen hn)
  · intro hc
    obtain ⟨-, hput⟩ := serSWritesASignedField.2 s c n v ha
    obtain ⟨b, hlen, hspells, hanswer⟩ := field_of_putsSigned (hput hn) hc
    have hb := ne_nil_of_length b n hlen hn
    refine ⟨b, hlen, hanswer, ?_⟩
    rw [← sint_eq_of_spellsInt hb hspells]
    exact answers_desS rfl hb

/-- The number a field of a natural number is read as. -/
theorem cast_uint_of_spells {b : Bits} {r : Int} (hr : 0 ≤ r) (h : Spells b r.toNat) : (uint b : Rat) = r := by
  rw [uint_eq_of_spells h]
  exact_mod_cast Int.toNat_of_nonneg hr

/-- A number rounds to one integer, so what holds of some rounding of it holds of each. -/
theorem of_roundsTo {q : Rat} {r : Int} {P : Int → Prop} (h : ∃ r', RoundsTo q r' ∧ P r') (hround : RoundsTo q r) :
    P r := by
  obtain ⟨r', hround', hP⟩ := h
  rwa [roundsTo_unique q r r' hround hround']

/-- Settles O35: `r` is the integer that the SER command rounds to, and the DES command reads it back from the field. -/
theorem scaledFieldsRoundTripOnTheGrid : Obligations.ScaledFieldsRoundTripOnTheGrid := by
  intro s c n x off res r hn hres ha
  refine ⟨fun hb hround h0 hmax => ?_, fun hb hround hmin hmax => ?_, fun hb hc hround h0 hmax => ?_⟩
  · obtain ⟨-, -, hput⟩ := serRuScalesAndRounds.2 s c n x res ha hb
    obtain ⟨-, hfits, -⟩ := of_roundsTo (hput hn hres) hround
    obtain ⟨b, hlen, hspells, hanswer⟩ := hfits h0 hmax
    obtain ⟨-, -, hread⟩ := scaled_of_exec_length (exec_desRu (s := withD (.bits b) s) rfl hb)
    refine ⟨b, hanswer, ?_⟩
    rw [← cast_uint_of_spells h0 hspells, mul_comm]
    exact hread (ne_nil_of_length b n hlen hn) hres
  · obtain ⟨-, -, hput⟩ := serRsScalesAndRounds.2 s c n x res ha hb
    obtain ⟨hfits, -⟩ := of_roundsTo (hput hn hres) hround
    obtain ⟨b, hlen, hspells, hanswer⟩ := hfits hmin hmax
    have hne := ne_nil_of_length b n hlen hn
    obtain ⟨-, -, hread⟩ := scaled_of_exec_length (exec_desRs (s := withD (.bits b) s) rfl hb)
    refine ⟨b, hanswer, ?_⟩
    rw [← sint_eq_of_spellsInt hne hspells, mul_comm]
    exact hread hne hres
  · obtain ⟨-, -, hput⟩ := serRoSubtractsTheOffset.2 s c n x off res ha hb hc
    obtain ⟨-, hfits, -⟩ := of_roundsTo (hput hn hres) hround
    obtain ⟨b, hlen, hspells, hanswer⟩ := hfits h0 hmax
    obtain ⟨-, -, hread⟩ := scaled_of_exec_length (exec_desRo (s := withD (.bits b) s) rfl hb hc)
    refine ⟨b, hanswer, ?_⟩
    rw [← cast_uint_of_spells h0 hspells]
    exact hread (ne_nil_of_length b n hlen hn) hres

end Sys2Proof.Proofs

/-! SUPPORT. The replies of the byte stuffer, the CRC generator and the frame commands, and the statements of
42_frame_transport.md. -/

namespace Sys2Proof.Proofs

open Machine Laws

/-! ## The replies, once the slots are read -/

section

variable {s : State} {inv : Bool} {m : Nat} {d e : Bytes}

theorem exec_esc (hd : s.operands.d = bytesValue d) : exec .esc s = answer s (.ok (.bytes (d.flatMap stuffed))) := by
  simp only [exec, execEsc, hd, withBytes, readBytes_bytesValue, escBytes_eq]

theorem exec_unesc (hd : s.operands.d = bytesValue d) : exec .unesc s = answer s (unescReply d) := by
  simp only [exec, execUnesc, hd, withBytes, readBytes_bytesValue]

theorem exec_crcGen (hd : s.operands.d = bytesValue d) : exec .crcGen s = answer s (.ok (.bytes (crcBytes d))) := by
  simp only [exec, execCrcGen, hd, withBytes, readBytes_bytesValue]

theorem exec_crcChk (hd : s.operands.d = bytesValue d) (he : s.operands.e = bytesValue e) :
    exec .crcChk s = answer s
      (if e.length ≠ 2 then .error .badOperand else if crcBytes d = e then .ok .unit else .error .invalidCrc) := by
  simp only [exec, execCrcChk, hd, he, withBytes, readBytes_bytesValue]

theorem exec_crcChks (hd : s.operands.d = bytesValue d) (he : s.operands.e = bytesValue e) :
    exec .crcChks s = answer s
      (if e.length ≠ 2 then .error .badOperand else .ok (.bool (decide (crcBytes d = e)))) := by
  simp only [exec, execCrcChks, hd, he, withBytes, readBytes_bytesValue]

theorem exec_frmBuild {ids : List Nat} {p : Bits} (hl : s.operands.l = .seq (ids.map Int.ofNat))
    (hd : s.operands.d = .bits p) : exec (.frmBuild inv) s = answer s (buildFrame inv ids p) := by
  simp only [exec, execFrmBuild, hl, hd, withNats, readNats, naturals_map_ofNat, withBits, readBits_bits]

theorem exec_frmDecon (hd : s.operands.d = bytesValue d) :
    exec (.frmDecon inv m) s = answer s (deconFrame inv m d) := by
  simp only [exec, execFrmDecon, hd, withBytes, readBytes_bytesValue]

theorem exec_frmSplit (hd : s.operands.d = bytesValue d) : exec .frmSplit s = answer s (splitFrames d) := by
  simp only [exec, execFrmSplit, hd, withBytes, readBytes_bytesValue]

end

/-! ## The byte stuffer -/

/-- R141: what ESC answers to a byte string. -/
theorem answers_esc_iff {s : State} {d : Bytes} (hd : s.operands.d = bytesValue d) (o : Bytes) :
    Answers .esc s (.bytes o) ↔ d.flatMap stuffed = o := by
  rw [answers_iff_of_answer (exec_esc hd), Except.ok.injEq, Result.bytes.injEq]

/-- R141: every byte stuffed adds one byte. -/
theorem length_flatMap_stuffed (d : Bytes) :
    (d.flatMap stuffed).length = d.length + d.countP fun b => b == 0x7D#8 || b == 0x7E#8 := by
  induction d with
  | nil => rfl
  | cons b d ih =>
    rw [List.flatMap_cons, List.length_append, ih, List.length_cons, List.countP_cons, stuffed]
    by_cases hb : b = 0x7D#8 ∨ b = 0x7E#8
    · have hcount : (b == 0x7D#8 || b == 0x7E#8) = true := by simpa using hb
      rw [if_pos hb, if_pos hcount, List.length_cons, List.length_singleton]; omega
    · have hcount : ¬ (b == 0x7D#8 || b == 0x7E#8) = true := by simpa using hb
      rw [if_neg hb, if_neg hcount, List.length_singleton]; omega

/-- Settles O36: ESC answers the stuffed bytes; `flag_not_mem_stuffed` and `length_flatMap_stuffed` describe them. -/
theorem escStuffsFlagsAndEscapes : Obligations.EscStuffsFlagsAndEscapes :=
  ⟨rfl, fun _ d hd => ⟨(answers_esc_iff hd _).2 rfl, flag_not_mem_stuffed d, length_flatMap_stuffed d⟩⟩

section

variable {units : List (Bool × Byte)}

/-- R142: whole units unescape to what they stand for. -/
theorem unescBytes_wire (h : UnitsOk units) : unescBytes (wire units) = some (content units) := by
  simpa [unescBytes, unescFrom] using unescFrom_wire units h []

/-- R142: an escape byte after whole units is a trailing one. -/
theorem unescBytes_wire_trailing (h : UnitsOk units) : unescBytes (wire units ++ [0x7D#8]) = none := by
  simpa [unescBytes, unescFrom, escByte] using unescFrom_wire units h [0x7D#8]

end

theorem unescReply_eq_ok {d u : Bytes} (h : unescBytes d = some u) : unescReply d = .ok (.bytes u) := by
  rw [unescReply, h]

theorem unescReply_eq_invalidFrame {d : Bytes} (h : unescBytes d = none) : unescReply d = .error .invalidFrame := by
  rw [unescReply, h]

/-- R142: UNESC answers the unescaped bytes where there is no trailing escape byte. -/
theorem answers_unesc {s : State} {d u : Bytes} (hd : s.operands.d = bytesValue d) (h : unescBytes d = some u) :
    Answers .unesc s (.bytes u) :=
  (answers_iff_of_answer (exec_unesc hd) _).2 (unescReply_eq_ok h)

/-- Settles O37: the scan of UNESC on whole units, with and without an escape byte after them. -/
theorem unescReadsStuffedUnits : Obligations.UnescReadsStuffedUnits := by
  refine ⟨rfl, fun d => exists_units d.length d le_rfl, fun s units hunits => ⟨fun hd => ?_, fun hd => ?_⟩⟩
  · exact answers_unesc hd (unescBytes_wire hunits)
  · exact raises_of_reply (exec_unesc hd) (unescReply_eq_invalidFrame (unescBytes_wire_trailing hunits))

/-- R155 (a): unescaping undoes the stuffing. -/
theorem unescBytes_flatMap_stuffed (d : Bytes) : unescBytes (d.flatMap stuffed) = some d := by
  rw [← escBytes_eq, unescBytes_escBytes]

/-- Settles O38: by `unescBytes_flatMap_stuffed` on what ESC answers. -/
theorem unescInvertsEsc : Obligations.UnescInvertsEsc := fun _ d hd =>
  ⟨d.flatMap stuffed, (answers_esc_iff hd _).2 rfl, answers_unesc rfl (unescBytes_flatMap_stuffed d)⟩

/-- R155 (b): `unesc` is a left inverse of the stuffing. -/
theorem flatMap_stuffed_injective : Function.Injective fun d : Bytes => d.flatMap stuffed := by
  intro d d' heq
  have hunesc : unescBytes (d.flatMap stuffed) = unescBytes (d'.flatMap stuffed) := congrArg unescBytes heq
  rw [unescBytes_flatMap_stuffed, unescBytes_flatMap_stuffed] at hunesc
  exact Option.some.inj hunesc

/-- R155 (b): the stuffed strings are the strings without a flag whose every escape byte has a stuffed byte after it. -/
theorem exists_flatMap_stuffed_iff (o : Bytes) :
    (∃ d : Bytes, d.flatMap stuffed = o) ↔
      (0x7E#8 ∉ o ∧ ∀ j, o[j]? = some 0x7D#8 → o[j + 1]? = some 0x5D#8 ∨ o[j + 1]? = some 0x5E#8) := by
  constructor
  · rintro ⟨d, rfl⟩
    exact ⟨flag_not_mem_stuffed d, escape_followed d⟩
  · rintro ⟨hflag, hescape⟩
    obtain ⟨d, hd⟩ := exists_escBytes o.length o le_rfl hflag hescape
    exact ⟨d, (escBytes_eq d).symm.trans hd⟩

/-- Settles O39: ESC answers exactly the stuffed strings, and stuffing is injective. -/
theorem escResultsAreTheStuffedStrings : Obligations.EscResultsAreTheStuffedStrings := by
  intro s o
  have hesc : ∀ d, Answers .esc (withD (bytesValue d) s) (.bytes o) ↔ d.flatMap stuffed = o := fun d =>
    answers_esc_iff rfl o
  simp only [hesc]
  exact ⟨exists_flatMap_stuffed_iff o, fun d d' hd hd' => flatMap_stuffed_injective (hd.trans hd'.symm)⟩

/-! ## The CRC generator -/

/-- R62, R65 (f): the words of CRC.TAB. -/
theorem decode_crcTab {i : Nat} (hi : i < 256) : decode (BitVec.ofNat 32 (0x88000000 + i)) = .ok (.crcTab i) := by
  simpa [encode, packWord] using decodeEncodeRoundTrip (.crcTab i) (by simp [WellFormed, fitsByte, hi])

theorem length_crctListing : crctListing.length = 256 := by
  rw [crctListing, List.length_append, List.length_append, List.length_append]
  rfl

/-- Settles O40: `answers_crcTab` for the entries of the listing. -/
theorem crcTabReadsTheListedTable : Obligations.CrcTabReadsTheListedTable :=
  ⟨fun _ => decode_crcTab, length_crctListing, fun s _ _ h => answers_crcTab h s⟩

theorem length_crcBytes (d : Bytes) : (crcBytes d).length = 2 := rfl

section

variable {s : State} {d e : Bytes}

/-- R148: what CRC.GEN answers to a byte string. -/
theorem answers_crcGen_iff (hd : s.operands.d = bytesValue d) : Answers .crcGen s (.bytes e) ↔ e = crcBytes d := by
  rw [answers_iff_of_answer (exec_crcGen hd), Except.ok.injEq, Result.bytes.injEq, eq_comm]

/-- Settles O41: the accumulator is `crc16`, whose two bytes are its remainder and its quotient by 256. -/
theorem crcGenEmitsLowByteFirst : Obligations.CrcGenEmitsLowByteFirst := by
  refine ⟨rfl, fun s d hd => ⟨crc16 d, rfl, ?_⟩⟩
  rw [answers_crcGen_iff hd, crcBytes, low_byte, high_byte]

/-- Settles O42: by `serialCrc_eq_crc16`, the bit-serial register holds the table-driven CRC. -/
theorem crcGenIsTheBitSerialRemainder : Obligations.CrcGenIsTheBitSerialRemainder := by
  intro s d hd
  rw [answers_crcGen_iff hd, crcBytes, serialCrc_eq_crc16]

/-- R149: CRC.CHK on the two bytes of the CRC. -/
theorem answers_crcChk (hd : s.operands.d = bytesValue d) (he : s.operands.e = bytesValue e) (h : e = crcBytes d) :
    Answers .crcChk s .unit := by
  have hlen : ¬ e.length ≠ 2 := by rw [h, length_crcBytes]; decide
  exact (answers_iff_of_answer (exec_crcChk hd he) _).2 (by rw [if_neg hlen, if_pos h.symm])

/-- R149: CRC.CHK on two other bytes. -/
theorem raises_crcChk (hd : s.operands.d = bytesValue d) (he : s.operands.e = bytesValue e) (hlen : e.length = 2)
    (h : e ≠ crcBytes d) : Raises .crcChk s .invalidCrc :=
  raises_of_reply (exec_crcChk hd he) (by rw [if_neg (not_not.2 hlen), if_neg h.symm])

/-- R150: CRC.CHKS on any two bytes answers the comparison. -/
theorem answers_crcChks (hd : s.operands.d = bytesValue d) (he : s.operands.e = bytesValue e) (hlen : e.length = 2) :
    Answers .crcChks s (.bool (decide (e = crcBytes d))) := by
  refine (answers_iff_of_answer (exec_crcChks hd he) _).2 ?_
  simp only [if_neg (not_not.2 hlen), eq_comm]

end

/-- Settles O43: the three replies of CRC.CHK; what CRC.GEN answers is `crcBytes` by `answers_crcGen_iff`. -/
theorem crcChkComparesWithCrcGen : Obligations.CrcChkComparesWithCrcGen := by
  refine ⟨rfl, fun s d e hd he => ?_⟩
  rw [answers_crcGen_iff hd]
  exact ⟨fun hlen => raises_of_reply (exec_crcChk hd he) (if_pos hlen), answers_crcChk hd he, raises_crcChk hd he,
    answers_crcChk hd he, raises_crcChk hd he⟩

/-- Settles O44: the replies of CRC.CHKS, the comparison being decided by `answers_crcGen_iff`. -/
theorem crcChksComparesSoftly : Obligations.CrcChksComparesSoftly := by
  refine ⟨rfl, fun s d e hd he => ?_⟩
  rw [answers_crcGen_iff hd]
  refine ⟨fun hlen => ?_, answers_crcChks hd he, fun heq => ?_, fun hlen hne => ?_⟩
  · exact raises_of_reply (exec_crcChks hd he) (if_pos hlen)
  · have hanswer := answers_crcChks hd he (by rw [heq, length_crcBytes])
    rwa [decide_eq_true heq] at hanswer
  · have hanswer := answers_crcChks hd he hlen
    rwa [decide_eq_false hne] at hanswer

/-! ## FRM.BUILD -/

/-- The region of a legal operand (R152): a byte for each ID, then the bytes of the payload. -/
def rawRegion (ids : List Nat) (p : Bits) : Bytes := ids.map (BitVec.ofNat 8) ++ bitsToBytes p

/-- The bytes between the two flags of a built frame: region and CRC, inverted when F is set, then stuffed (R152). -/
def stuffedRegion (inv : Bool) (r : Bytes) : Bytes := (invertIf inv (r ++ crcBytes r)).flatMap stuffed

theorem frameOf_eq (inv : Bool) (r : Bytes) : frameOf inv r = 0x7E#8 :: stuffedRegion inv r ++ [0x7E#8] := by
  rw [frameOf, escBytes_eq, stuffedRegion, flagByte]

/-- R152: the checks of FRM.BUILD. -/
theorem buildFrame_eq_badOperand {inv : Bool} {ids : List Nat} {p : Bits}
    (h : ids = [] ∨ (∃ id ∈ ids, 255 < id) ∨ p.length % 8 ≠ 0) : buildFrame inv ids p = .error .badOperand := by
  rw [← List.length_eq_zero_iff] at h
  unfold buildFrame
  split_ifs with hempty hany hbits
  · rfl
  · rfl
  · rfl
  · have hlarge : ∃ id ∈ ids, 255 < id := (h.resolve_left hempty).resolve_right hbits
    exact absurd (by simpa using hlarge) hany

section

variable {s : State} {inv : Bool} {ids : List Nat} {p : Bits}

/-- R152: FRM.BUILD past its checks. -/
theorem buildFrame_eq_ok (hids : ids ≠ []) (hsmall : ∀ id ∈ ids, id ≤ 255) (hmul : p.length % 8 = 0) :
    buildFrame inv ids p = .ok (.bytes (frameOf inv (rawRegion ids p))) := by
  have hany : ¬ (ids.any fun id => decide (255 < id)) = true := by simpa using hsmall
  rw [buildFrame, if_neg (mt List.length_eq_zero_iff.1 hids), if_neg hany, if_neg (not_not.2 hmul), rawRegion]

/-- R152: FRM.BUILD answers the frame of a legal operand's region. -/
theorem answers_frmBuild (hl : s.operands.l = .seq (ids.map Int.ofNat)) (hd : s.operands.d = .bits p)
    (hids : ids ≠ []) (hsmall : ∀ id ∈ ids, id ≤ 255) (hmul : p.length % 8 = 0) :
    Answers (.frmBuild inv) s (.bytes (frameOf inv (rawRegion ids p))) :=
  (answers_iff_of_answer (exec_frmBuild hl hd) _).2 (buildFrame_eq_ok hids hsmall hmul)

end

/-- Settles O45: `buildFrame_eq_badOperand` for the errors; the payload bytes are those of `bitsToBytes`, and `invertIf`
is the inversion of R45. -/
theorem frmBuildAssemblesAFrame : Obligations.FrmBuildAssemblesAFrame := by
  refine ⟨fun inv => by cases inv <;> rfl, fun s inv ids p hl hd => ⟨fun h => ?_, fun h => ?_, fun h => ?_, ?_⟩⟩
  · exact raises_of_reply (exec_frmBuild hl hd) (buildFrame_eq_badOperand (.inl h))
  · exact raises_of_reply (exec_frmBuild hl hd) (buildFrame_eq_badOperand (.inr (.inl h)))
  · exact raises_of_reply (exec_frmBuild hl hd) (buildFrame_eq_badOperand (.inr (.inr h)))
  · intro hids hsmall hmul
    have hanswer := answers_frmBuild (inv := inv) hl hd hids hsmall hmul
    rw [frameOf_eq] at hanswer
    exact ⟨bitsToBytes p, _, spellsBytes_bitsToBytes hmul, (invertedBy_iff inv _ _).2 rfl, flag_not_mem_stuffed _,
      hanswer⟩

/-! ## FRM.DECON -/

section

variable {inv : Bool} {m : Nat}

theorem deconFrame_zero (d : Bytes) : deconFrame inv 0 d = .error .badOperand := rfl

/-- R153: a buffer that is no flagged region. -/
theorem deconFrame_of_no_flags {d : Bytes} (hm : m ≠ 0) (h : ¬ ∃ middle, d = 0x7E#8 :: middle ++ [0x7E#8]) :
    deconFrame inv m d = .error .missingFlagBytes := by
  rw [deconFrame, if_neg hm, stripFlags_unflagged d h]

/-- R153: a trailing escape byte between the flags. -/
theorem deconFrame_of_trailing_escape {middle : Bytes} (hm : m ≠ 0) (h : unescBytes middle = none) :
    deconFrame inv m (0x7E#8 :: middle ++ [0x7E#8]) = .error .invalidFrame := by
  rw [deconFrame, if_neg hm, stripFlags_flagged]
  simp only [h]

/-- R153: past flags and escapes, the region decides. -/
theorem deconFrame_of_region {middle u : Bytes} (hm : m ≠ 0) (h : unescBytes middle = some u) :
    deconFrame inv m (0x7E#8 :: middle ++ [0x7E#8]) = splitRegion m (invertIf inv u) := by
  rw [deconFrame, if_neg hm, stripFlags_flagged]
  simp only [h]

theorem splitRegion_of_short {u : Bytes} (h : u.length < m + 2) : splitRegion m u = .error .invalidFrame :=
  if_pos h

/-- R153: a region of enough bytes, cut before its two CRC bytes. -/
theorem splitRegion_append {r c : Bytes} (hc : c.length = 2) (hr : m ≤ r.length) :
    splitRegion m (r ++ c) =
      if crcBytes r = c then .ok (.message ((r.take m).map BitVec.toNat) (bytesToBits (r.drop m)))
      else .error .invalidCrc := by
  have hlen : (r ++ c).length = r.length + 2 := by rw [List.length_append, hc]
  have hlong : ¬ r.length + 2 < m + 2 := by omega
  rw [splitRegion, hlen, Nat.add_sub_cancel, List.take_left, List.drop_left, if_neg hlong]

end

/-- Settles O46: the checks of `deconFrame` in their order, then those of `splitRegion`. -/
theorem frmDeconDisassemblesAFrame : Obligations.FrmDeconDisassemblesAFrame := by
  refine ⟨fun inv m hm => decode_flagImm 0x29 .frmDecon (by decide) (by decide) inv m hm rfl,
    fun s inv m d hd => ⟨?zero, ?noFlags, ?trailing, ?region⟩⟩
  case zero =>
    rintro rfl
    exact raises_of_reply (exec_frmDecon hd) (deconFrame_zero d)
  case noFlags =>
    intro hm hflags
    exact raises_of_reply (exec_frmDecon hd) (deconFrame_of_no_flags hm hflags)
  case trailing =>
    rintro units hm hunits rfl
    exact raises_of_reply (exec_frmDecon hd) (deconFrame_of_trailing_escape hm (unescBytes_wire_trailing hunits))
  case region =>
    rintro units u hm hunits rfl hu
    have hexec : exec (.frmDecon inv m) s = answer s (splitRegion m u) := by
      rw [exec_frmDecon hd, deconFrame_of_region hm (unescBytes_wire hunits), (invertedBy_iff inv _ u).1 hu]
    refine ⟨fun hshort => raises_of_reply hexec (splitRegion_of_short hshort), ?_⟩
    rintro r c rfl hc hr
    rw [splitRegion_append hc hr] at hexec
    refine ⟨fun hne => raises_of_reply hexec (if_neg hne), fun heq => ?_⟩
    exact ⟨_, bytesToBits_spells (r.drop m), (answers_iff_of_answer hexec _).2 (if_pos heq)⟩

/-- R153 (round trip): disassembling the frame of a region cuts the region at `m`. -/
theorem deconFrame_frameOf {inv : Bool} {m : Nat} {r : Bytes} (hm : m ≠ 0) (hr : m ≤ r.length) :
    deconFrame inv m (frameOf inv r) =
      .ok (.message ((r.take m).map BitVec.toNat) (bytesToBits (r.drop m))) := by
  rw [frameOf_eq, stuffedRegion, deconFrame_of_region hm (unescBytes_flatMap_stuffed _), invertIf_twice,
    splitRegion_append (length_crcBytes r) hr, if_pos rfl]

/-- Settles O47: by `deconFrame_frameOf`, cutting the region after the IDs. -/
theorem frmDeconInvertsFrmBuild : Obligations.FrmDeconInvertsFrmBuild := by
  intro s inv ids p hl hd hids hsmall hmul
  refine ⟨_, answers_frmBuild hl hd hids hsmall hmul, (answers_iff_of_answer (exec_frmDecon rfl) _).2 ?_⟩
  obtain ⟨hpayload, -⟩ := bytesToBits_bitsToBytes (p.length / 8) p (by omega)
  have hlen : (ids.map (BitVec.ofNat 8)).length = ids.length := List.length_map _
  rw [deconFrame_frameOf (mt List.length_eq_zero_iff.1 hids) (by simp [rawRegion]), rawRegion,
    List.take_left' hlen, List.drop_left' hlen, ids_of_bytes ids hsmall, hpayload]

/-! ## FRM.SPLIT -/

/-- A flag and segments that each end in a flag end in a flag. -/
theorem getLast?_flag_cons_segments (segs : List Bytes) :
    (0x7E#8 :: segs.flatMap (· ++ [0x7E#8])).getLast? = some 0x7E#8 := by
  rcases List.eq_nil_or_concat segs with rfl | ⟨init, last, rfl⟩
  · rfl
  · simp [List.getLast?_cons]

/-- R154: the reply of FRM.SPLIT to a flag and segments that each end in a flag. -/
theorem splitFrames_segments {segs : List Bytes} (h : ∀ seg ∈ segs, 0x7E#8 ∉ seg) :
    splitFrames (0x7E#8 :: segs.flatMap (· ++ [0x7E#8])) =
      .ok (.frames ((segs.filter fun seg => !seg.isEmpty).map fun seg => 0x7E#8 :: seg ++ [0x7E#8])) := by
  have hflags : ¬ ((0x7E#8 :: segs.flatMap (· ++ [0x7E#8])).head? ≠ some flagByte ∨
      (0x7E#8 :: segs.flatMap (· ++ [0x7E#8])).getLast? ≠ some flagByte) := by
    rw [getLast?_flag_cons_segments]; simp [flagByte]
  rw [splitFrames, if_neg (by simp), if_neg hflags, List.drop_one, List.tail_cons, splitFrom_segments segs h]

/-- R154: a buffer with its outer flags is a flag and segments that each end in a flag. -/
theorem exists_segments_of_flags {d : Bytes} (hhead : d.head? = some 0x7E#8) (hlast : d.getLast? = some 0x7E#8) :
    ∃ segs : List Bytes, (∀ seg ∈ segs, 0x7E#8 ∉ seg) ∧ d = 0x7E#8 :: segs.flatMap (· ++ [0x7E#8]) := by
  obtain ⟨rest, rfl⟩ := List.head?_eq_some_iff.1 hhead
  rcases eq_or_ne rest [] with rfl | hne
  · exact ⟨[], by simp, rfl⟩
  · obtain ⟨b, rest', rfl⟩ := List.exists_cons_of_ne_nil hne
    obtain ⟨segs, hsegs, heq⟩ := exists_segments (b :: rest') (by simpa using hlast)
    exact ⟨segs, hsegs, congrArg _ heq⟩

/-- Settles O48: the two checks, and `splitFrames_segments` on the segments that `exists_segments_of_flags` finds. -/
theorem frmSplitCutsAtFlags : Obligations.FrmSplitCutsAtFlags := by
  refine ⟨rfl, fun s d hd => ⟨?_, fun hne hflags => ?_, fun hhead hlast => ?_⟩⟩
  · rintro rfl
    exact exec_frmSplit hd
  · refine raises_of_reply (exec_frmSplit hd) ?_
    rw [splitFrames, if_neg (mt List.length_eq_zero_iff.1 hne)]
    exact if_pos hflags
  · obtain ⟨segs, hsegs, rfl⟩ := exists_segments_of_flags hhead hlast
    exact ⟨segs, hsegs, rfl, (answers_iff_of_answer (exec_frmSplit hd) _).2 (splitFrames_segments hsegs)⟩

/-! ## FRM.SPLIT of built frames -/

theorem buildFrame_eq_ok_frameOf {inv : Bool} {ids : List Nat} {p : Bits} {f : Bytes}
    (h : buildFrame inv ids p = .ok (.bytes f)) : ∃ r, f = frameOf inv r := by
  unfold buildFrame at h
  split_ifs at h
  exact ⟨_, (Result.bytes.inj (Except.ok.inj h)).symm⟩

/-- R152: whatever the operands are, what FRM.BUILD answers is the frame of some region. -/
theorem exists_frameOf_of_answers {inv : Bool} {s : State} {f : Bytes} (h : Answers (.frmBuild inv) s (.bytes f)) :
    ∃ r, f = frameOf inv r := by
  have hexec : exec (.frmBuild inv) s = answer s
      (withNats s.operands.l fun ids => withBits s.operands.d fun p => buildFrame inv ids p) := rfl
  have hreply := (answers_iff_of_answer hexec _).1 h
  unfold withNats withBits at hreply
  split at hreply
  · split at hreply
    · exact buildFrame_eq_ok_frameOf hreply
    · cases hreply
  · cases hreply

theorem length_invertIf (inv : Bool) (d : Bytes) : (invertIf inv d).length = d.length := by
  cases inv <;> simp [invertIf, revBytes]

/-- The CRC alone makes the bytes between the flags not empty. -/
theorem stuffedRegion_ne_nil (inv : Bool) (r : Bytes) : stuffedRegion inv r ≠ [] := by
  have hlen : 2 ≤ (stuffedRegion inv r).length := by
    rw [stuffedRegion, length_flatMap_stuffed, length_invertIf, List.length_append, length_crcBytes]; omega
  intro hnil
  simp [hnil] at hlen

/-- R155 (d): what FRM.BUILD answers is a flag, bytes that are no flags, and a flag. -/
theorem exists_segment_of_answers {inv : Bool} {s : State} {f : Bytes} (h : Answers (.frmBuild inv) s (.bytes f)) :
    ∃ seg : Bytes, seg ≠ [] ∧ 0x7E#8 ∉ seg ∧ f = 0x7E#8 :: seg ++ [0x7E#8] := by
  obtain ⟨r, rfl⟩ := exists_frameOf_of_answers h
  exact ⟨stuffedRegion inv r, stuffedRegion_ne_nil inv r, flag_not_mem_stuffed _, frameOf_eq inv r⟩

/-- Settles O49: doubled flags are an empty segment between the two of the frames, which FRM.SPLIT skips; with a shared flag
there is none. -/
theorem frmSplitRecoversBuiltFrames : Obligations.FrmSplitRecoversBuiltFrames := by
  intro s s₁ s₂ inv₁ inv₂ f g hf hg
  obtain ⟨a, ha, haflag, rfl⟩ := exists_segment_of_answers hf
  obtain ⟨b, hb, hbflag, rfl⟩ := exists_segment_of_answers hg
  have hdoubled := splitFrames_segments (segs := [a, [], b]) (by simp [haflag, hbflag])
  have hshared := splitFrames_segments (segs := [a, b]) (by simp [haflag, hbflag])
  constructor
  · refine (answers_iff_of_answer (exec_frmSplit rfl) _).2 ?_
    simpa [ha, hb] using hdoubled
  · refine (answers_iff_of_answer (exec_frmSplit rfl) _).2 ?_
    simpa [ha, hb] using hshared

end Sys2Proof.Proofs

/-! PROOFS of the obligations about the status commands ST.RD and ST.CLR (43_control.md). -/

namespace Sys2Proof.Proofs

open Machine Laws

/-- R170, ST.RD: the reply is the value read, in every state. -/
theorem exec_stRd (s : State) : exec .stRd s = answer s (.ok (.nat (statusRead s.status).toNat)) := rfl

/-- R171, ST.CLR: STATUS is written with 0, in every state. -/
theorem exec_stClr (s : State) : exec .stClr s = .next (respond .unit (setStatus 0#32 s)) := rfl

/-- R23: the mask of a read of STATUS keeps the fields ERRCODE and ERR. -/
theorem getLsbD_statusMask : ∀ j < 32, (0x10F#32).getLsbD j = (decide (j < 4) || decide (j = 8)) := by decide

/-- R23: bit by bit, a read of STATUS gives the two fields, whatever the hardwired bits hold. -/
theorem getLsbD_statusRead (status : BitVec 32) {j : Nat} (hj : j < 32) :
    (statusRead status).getLsbD j = (status.getLsbD j && (decide (j < 4) || decide (j = 8))) := by
  rw [statusRead, BitVec.getLsbD_and, getLsbD_statusMask j hj]

/-- Settles O50: the value read is `statusRead` of STATUS, whose bits `getLsbD_statusRead` gives. -/
theorem stRdReadsTheFields : Obligations.StRdReadsTheFields :=
  ⟨rfl, fun s => ⟨(statusRead s.status).toNat, (answers_iff_of_answer (exec_stRd s) _).2 rfl, BitVec.isLt _,
    fun _ hj => getLsbD_statusRead s.status hj⟩⟩

/-- Settles O51: by `exec_stClr`, in every state. -/
theorem stClrClearsStatus : Obligations.StClrClearsStatus := ⟨rfl, exec_stClr⟩

end Sys2Proof.Proofs

/-! PROOFS of the obligations about errors (60_exceptions.md). -/

namespace Sys2Proof.Proofs

open Machine Laws

/-- R184: a command ends in an error only by its reply. The effects of BS.LOAD, BS.POP and ST.CLR that are not a reply alone
answer a result. -/
theorem exec_eq_answer_of_error {i : Instr} {s t : State} {e : ErrorKind} (hexec : exec i s = .next t)
    (herr : t.response = some (.err e)) : exec i s = answer s (.error e) := by
  obtain ⟨-, r, rfl⟩ | ⟨-, d, -, rfl⟩ | ⟨n, -, rfl⟩ | ⟨-, rfl⟩ := exec_next_cases hexec
  · cases r with
    | ok v => simp at herr
    | error e' =>
      obtain rfl : e' = e := by simpa using herr
      exact hexec
  · simp at herr
  · simp at herr
  · simp at herr

/-- Settles O53: an error is the reply of the command by `exec_eq_answer_of_error`, and its effect is that of `raise`. -/
theorem anErrorChangesStatusAlone : Obligations.AnErrorChangesStatusAlone :=
  fun _ _ _ _ hexec herr => raises_of_answer (exec_eq_answer_of_error hexec herr)

/-- Settles O56: by `exec_error_mem_mayRaise`, the case split over all commands being `exec_replies`. -/
theorem commandsRaiseOnlyTheirErrors : Obligations.CommandsRaiseOnlyTheirErrors :=
  fun _ _ _ _ hexec herr => exec_error_mem_mayRaise hexec herr

end Sys2Proof.Proofs

/-! PROOFS of the obligations about reset (70_reset_and_hazards.md). -/

namespace Sys2Proof.Proofs

open Machine

/-- R200: when the reset input comes next, the step is the reset, whether or not a command was in progress. -/
theorem step_of_reset {s : State} {inProgress : Option Command} {rest : List HostEvent}
    (hhost : s.host = .reset inProgress :: rest) : step s = .next (resetState rest s) := by
  simp only [step, advance, hhost]

/-- Settles O7: by `step_of_reset`, the fields of the state being those that `resetState` writes. -/
theorem resetInputResetsTheBlock : Obligations.ResetInputResetsTheBlock :=
  fun _ _ _ hhost => step_of_reset hhost

end Sys2Proof.Proofs
